-- ==== Sys2Proof/Word.lean ====
section
/-! DEFINITION. The word types of the decoder (00_scope.md R8, R12). -/

namespace Sys2Proof

/-- One stream element, `BYTE_W` = 8 bits (00_scope.md R8). -/
abbrev Byte := BitVec 8

/-- A 16-bit word: the lookahead window, `WINDOW_W` = 16 bits (00_scope.md R8). -/
abbrev Word := BitVec 16

/-- A signed 16-bit value, `IMM_W` = `DISP_W` = 16 bits, held as its two's-complement pattern. R12: the integer in
[-32768, 32767] and its pattern "are the same value of type `Int16`". Its integer is `BitVec.toInt`. -/
abbrev SWord := BitVec 16

end Sys2Proof
end

