-- ==== Sys2Proof/Syntax.lean ====
section
/-! DEFINITION. The instructions, one constructor per row of opcode_table.json, and the values of the decoder's output
(00_scope.md R14). -/

namespace Sys2Proof

/-- The instructions of the subset: one constructor per row of opcode_table.json, holding the raw bit fields of
30_encoding.md R70 and R73. `d` is the direction bit, `w` the width bit, `reg` and `rm` the 3-bit fields. -/
inductive Instr where
  /-- MOV_RR, mod = 11 (R130). -/
  | movRR (d w : BitVec 1) (reg rm : BitVec 3)
  /-- MOV_M0_a, mod = 00 with rm in 000..011 (R131). -/
  | movM0a (d w : BitVec 1) (reg rm : BitVec 3)
  /-- MOV_M0_b, mod = 00 with rm in 100, 101 (R131). -/
  | movM0b (d w : BitVec 1) (reg rm : BitVec 3)
  /-- MOV_M0_c, mod = 00 with rm = 111 (R131). -/
  | movM0c (d w : BitVec 1) (reg : BitVec 3)
  /-- MOV_DIRECT, mod = 00 with rm = 110 (R132). -/
  | movDirect (d w : BitVec 1) (reg : BitVec 3)
  /-- MOV_M8, mod = 01; `disp` is the raw byte 2 (R133). -/
  | movM8 (d w : BitVec 1) (reg rm : BitVec 3) (disp : Byte)
  /-- MOV_M16, mod = 10; `disp` is the pattern byte 3 ++ byte 2 (R134, R106). -/
  | movM16 (d w : BitVec 1) (reg rm : BitVec 3) (disp : Word)
  /-- MOV_IR8, w = 0; `data` is the raw byte 1 (R150). -/
  | movIR8 (reg : BitVec 3) (data : Byte)
  /-- MOV_IR16, w = 1; `data` is the pattern byte 2 ++ byte 1 (R151). -/
  | movIR16 (reg : BitVec 3) (data : Word)
  /-- MOV_IRM: the window alone, `w` and the untested byte 1 (R160). The class has no field layout (R161). -/
  | movIRM (w : BitVec 1) (byte1 : Byte)
  deriving DecidableEq, Repr

/-- The sixteen register names, in the order of REGTAB (10_state.md R21). Identifiers only (00_scope.md R7). -/
inductive Reg where
  | al | ax | cl | cx | dl | dx | bl | bx | ah | sp | ch | bp | dh | si | bh | di
  deriving DecidableEq, Repr

/-- The eight base combinations, in the order of EATAB (10_state.md R22). -/
inductive EABase where
  | bxSi | bxDi | bpSi | bpDi | si | di | bp | bx
  deriving DecidableEq, Repr

/-- A displacement: none, 8-bit sign-extended, or 16-bit (R14; the case is kept, 92_eei_decisions.md D13). -/
inductive Disp where
  | none
  | d8 (v : SWord)
  | d16 (v : SWord)
  deriving DecidableEq, Repr

/-- A symbolic effective address (R14, R103): no number is formed. -/
structure EffAddr where
  base : EABase
  disp : Disp
  deriving DecidableEq, Repr

/-- An operand of a record (R14): exactly one tag. -/
inductive Operand where
  | reg (r : Reg)
  | mem (ea : EffAddr)
  | imm (v : SWord)
  deriving DecidableEq, Repr

/-- The mnemonic of a record: MOV, the only one (R97). -/
inductive Mnemonic where
  | mov
  deriving DecidableEq, Repr

/-- A decoded-instruction record (10_state.md R27, 00_scope.md R14). -/
structure Record where
  mnemonic : Mnemonic
  dst : Operand
  src : Operand
  len : Nat
  deriving DecidableEq, Repr

/-- The three failure kinds (60_exceptions.md R200). -/
inductive ErrKind where
  | unsupportedOpcode
  | notImplemented
  | truncatedStream
  deriving DecidableEq, Repr

/-- What a failure records (10_state.md R26): the kind, the offset of byte 0 of the failing instruction, and the window
when two bytes remained. -/
structure ErrRec where
  kind : ErrKind
  offset : Nat
  window : Option Word
  deriving DecidableEq, Repr

end Sys2Proof
end

