-- ==== Sys2Proof/WellFormed.lean ====
section
/-! DEFINITION. Which terms of Instr are encodings of their row (30_encoding.md R79). -/

namespace Sys2Proof

/-- The row's condition on `rm` that the field widths do not say already: MOV_M0_a has rm in 000..011 and MOV_M0_b has rm
in 100, 101. Every other row admits every value of its fields. -/
def Instr.wf : Instr → Bool
  | .movRR _ _ _ _ => true
  | .movM0a _ _ _ rm => decide (rm.toNat ≤ 3)
  | .movM0b _ _ _ rm => decide (rm.toNat = 4 ∨ rm.toNat = 5)
  | .movM0c _ _ _ => true
  | .movDirect _ _ _ => true
  | .movM8 _ _ _ _ _ => true
  | .movM16 _ _ _ _ _ => true
  | .movIR8 _ _ => true
  | .movIR16 _ _ => true
  | .movIRM _ _ => true

end Sys2Proof
end

