-- ==== Sys2Proof/Decode.lean ====
section
/-! DEFINITION. The bit-field extractor, the opcode matcher with its dispatch table, the decoder of a byte sequence, the
encoder, and the reading of an opcode-table word (30_encoding.md). -/

namespace Sys2Proof

/-! ### Bit-field extractor (§4.1) -/

/-- `extractField` (R71): `(word >> start) & ((1 << width) - 1)`. -/
def extractField (word : Word) (start width : Nat) : Nat :=
  (word >>> start).toNat &&& ((1 <<< width) - 1)

/-- The field of `width` bits at `start`, as a bit vector of that width. -/
def fieldAt (word : Word) (start width : Nat) : BitVec width :=
  BitVec.ofNat width (extractField word start width)

/-- `b0 ++ b1`, with `b0` in the more significant bits (00_scope.md R11). -/
def bytePair (hi lo : Byte) : Word := hi ++ lo

/-! Field positions in the window (R73). -/

/-- RM `d`, W[9]. -/
def rmD (W : Word) : BitVec 1 := fieldAt W 9 1
/-- RM `w`, W[8]. -/
def rmW (W : Word) : BitVec 1 := fieldAt W 8 1
/-- RM `mod`, W[7:6]. -/
def rmMod (W : Word) : BitVec 2 := fieldAt W 6 2
/-- RM `reg`, W[5:3]. -/
def rmReg (W : Word) : BitVec 3 := fieldAt W 3 3
/-- RM `rm`, W[2:0]. -/
def rmRm (W : Word) : BitVec 3 := fieldAt W 0 3
/-- IR `w`, W[11]. -/
def irW (W : Word) : BitVec 1 := fieldAt W 11 1
/-- IR `reg`, W[10:8]. -/
def irReg (W : Word) : BitVec 3 := fieldAt W 8 3
/-- IR `data-lo`, byte 1, W[7:0]. -/
def irData (W : Word) : Byte := fieldAt W 0 8
/-- IRM `w`, W[8] (R70: byte 0 is 1100011w). -/
def irmW (W : Word) : BitVec 1 := fieldAt W 8 1
/-- Byte 1 of the window, W[7:0] (R72). -/
def windowByte1 (W : Word) : Byte := fieldAt W 0 8
/-- Byte 0 of the window, W[15:8] (R72; 92_eei_decisions.md D1, log entry 5). -/
def windowByte0 (W : Word) : Byte := fieldAt W 8 8

/-! ### Opcode matcher (§4.2) -/

/-- The identifying tags of the three opcode classes (R75). -/
inductive ClassTag where
  | regMemToFromReg
  | immediateToRegMem
  | immediateToReg
  deriving DecidableEq, Repr

/-- An opcode class: "a mask/pattern pair plus an identifying tag" (R75). -/
structure OpcodeClass where
  tag : ClassTag
  mask : Word
  pattern : Word
  deriving DecidableEq, Repr

/-- `CLASSTAB`, in its priority order (R75). The pair of immediateToRegMem is PRESUMED (log entry 6). -/
def classTab : List OpcodeClass :=
  [⟨.regMemToFromReg, 0xFC00#16, 0x8800#16⟩,
   ⟨.immediateToRegMem, 0xFE00#16, 0xC600#16⟩,
   ⟨.immediateToReg, 0xF000#16, 0xB000#16⟩]

/-- `matches` (R74): `(window & class.mask) == class.pattern`. -/
def classMatches (W : Word) (c : OpcodeClass) : Bool := (W &&& c.mask) == c.pattern

/-- The tag of the first entry of a table that matches. -/
def dispatchIn (tab : List OpcodeClass) (W : Word) : Option ClassTag :=
  (tab.find? (classMatches W)).map (·.tag)

/-- `dispatch` (R76). -/
def dispatch (W : Word) : Option ClassTag := dispatchIn classTab W

/-! ### Length (R83, R112) -/

/-- Extra bytes of RegMemToFromReg by `mod` (R112). -/
def regMemExtra (mod : BitVec 2) : Nat := if mod = 1#2 then 1 else if mod = 2#2 then 2 else 0

/-- `length` (R83). ImmediateToRegMem and no class have none. -/
def lengthOf (W : Word) : Option Nat :=
  match dispatch W with
  | some .regMemToFromReg => some (2 + regMemExtra (rmMod W))
  | some .immediateToReg => some (2 + (irW W).toNat)
  | some .immediateToRegMem => none
  | none => none

/-- The recognised forms with no decode (R173): ImmediateToRegMem, and RegMemToFromReg with mod = 00 and rm = 110. -/
def noDecode (W : Word) : Bool :=
  match dispatch W with
  | some .regMemToFromReg => decide (rmMod W = 0#2 ∧ rmRm W = 6#3)
  | some .immediateToRegMem => true
  | some .immediateToReg => false
  | none => false

/-- How many bytes a step reads for a matched window (20_memory.md R54): the length, or the 2 of the window for a form
with no decode; none when no class matches. -/
def bytesNeeded (W : Word) : Option Nat :=
  match dispatch W with
  | none => none
  | some _ => if noDecode W then some 2 else lengthOf W

/-! ### Decoder -/

/-- Why a byte sequence is no instruction: rejections by name. -/
inductive DecodeError where
  /-- Fewer than two bytes (44_stream_advance.md R171). -/
  | shortWindow
  /-- The window matches no class (R172). -/
  | unsupported (W : Word)
  /-- A matched window whose length exceeds the bytes that remain (R174). -/
  | truncated (W : Word)
  deriving DecidableEq, Repr

/-- The failure kind of a rejection (60_exceptions.md R201, R203). -/
def DecodeError.kind : DecodeError → ErrKind
  | .shortWindow => .truncatedStream
  | .unsupported _ => .unsupportedOpcode
  | .truncated _ => .truncatedStream

/-- The window a rejection records (60_exceptions.md R201, R203): none when it could not be built. -/
def DecodeError.window : DecodeError → Option Word
  | .shortWindow => none
  | .unsupported W => some W
  | .truncated W => some W

/-- Format RM (R70, R79): the form by `mod` and `rm`, and the displacement bytes after the window. -/
def decodeRegMem (W : Word) (rest : List Byte) : Except DecodeError (Instr × List Byte) :=
  if rmMod W = 3#2 then .ok (.movRR (rmD W) (rmW W) (rmReg W) (rmRm W), rest)
  else if rmMod W = 0#2 then
    if rmRm W = 6#3 then .ok (.movDirect (rmD W) (rmW W) (rmReg W), rest)
    else if rmRm W = 7#3 then .ok (.movM0c (rmD W) (rmW W) (rmReg W), rest)
    else if (rmRm W).toNat ≤ 3 then .ok (.movM0a (rmD W) (rmW W) (rmReg W) (rmRm W), rest)
    else .ok (.movM0b (rmD W) (rmW W) (rmReg W) (rmRm W), rest)
  else if rmMod W = 1#2 then
    match rest with
    | b2 :: rest' => .ok (.movM8 (rmD W) (rmW W) (rmReg W) (rmRm W) b2, rest')
    | _ => .error (.truncated W)
  else
    match rest with
    | b2 :: b3 :: rest' => .ok (.movM16 (rmD W) (rmW W) (rmReg W) (rmRm W) (bytePair b3 b2), rest')
    | _ => .error (.truncated W)

/-- Format IR (R70, R79): the form by `w`, and the second data byte after the window. -/
def decodeImmReg (W : Word) (rest : List Byte) : Except DecodeError (Instr × List Byte) :=
  if irW W = 0#1 then .ok (.movIR8 (irReg W) (irData W), rest)
  else
    match rest with
    | b2 :: rest' => .ok (.movIR16 (irReg W) (bytePair b2 (irData W)), rest')
    | _ => .error (.truncated W)

/-- The decoder, total on any bytes: the instruction at the front and the bytes after it, or a rejection by name. -/
def decode : List Byte → Except DecodeError (Instr × List Byte)
  | b0 :: b1 :: rest =>
    match dispatch (bytePair b0 b1) with
    | none => .error (.unsupported (bytePair b0 b1))
    | some .regMemToFromReg => decodeRegMem (bytePair b0 b1) rest
    | some .immediateToRegMem => .ok (.movIRM (irmW (bytePair b0 b1)) (windowByte1 (bytePair b0 b1)), rest)
    | some .immediateToReg => decodeImmReg (bytePair b0 b1) rest
  | _ => .error .shortWindow

/-! ### Encoder, from the formats of R70 -/

/-- The window of format RM: `100010 d w`, `mod reg rm`. -/
def rmWindow (d w : BitVec 1) (mod : BitVec 2) (reg rm : BitVec 3) : Word :=
  0b100010#6 ++ d ++ w ++ mod ++ reg ++ rm

/-- The window of format IR: `1011 w reg`, `data-lo`. -/
def irWindow (w : BitVec 1) (reg : BitVec 3) (data : Byte) : Word :=
  0b1011#4 ++ w ++ reg ++ data

/-- The window of format IRM: `1100011 w`, byte 1 untested. -/
def irmWindow (w : BitVec 1) (byte1 : Byte) : Word :=
  0b1100011#7 ++ w ++ byte1

/-- The low byte of a 16-bit operand: the first in the stream (20_memory.md R52). -/
def lowByte (v : Word) : Byte := v.extractLsb' 0 8

/-- The high byte of a 16-bit operand: the second in the stream (20_memory.md R52). -/
def highByte (v : Word) : Byte := v.extractLsb' 8 8

/-- The 16-bit window of an instruction. -/
def Instr.window : Instr → Word
  | .movRR d w reg rm => rmWindow d w 3#2 reg rm
  | .movM0a d w reg rm => rmWindow d w 0#2 reg rm
  | .movM0b d w reg rm => rmWindow d w 0#2 reg rm
  | .movM0c d w reg => rmWindow d w 0#2 reg 7#3
  | .movDirect d w reg => rmWindow d w 0#2 reg 6#3
  | .movM8 d w reg rm _ => rmWindow d w 1#2 reg rm
  | .movM16 d w reg rm _ => rmWindow d w 2#2 reg rm
  | .movIR8 reg data => irWindow 0#1 reg data
  | .movIR16 reg data => irWindow 1#1 reg (lowByte data)
  | .movIRM w byte1 => irmWindow w byte1

/-- The bytes of an instruction after its window. -/
def Instr.tail : Instr → List Byte
  | .movRR _ _ _ _ => []
  | .movM0a _ _ _ _ => []
  | .movM0b _ _ _ _ => []
  | .movM0c _ _ _ => []
  | .movDirect _ _ _ => []
  | .movM8 _ _ _ _ disp => [disp]
  | .movM16 _ _ _ _ disp => [lowByte disp, highByte disp]
  | .movIR8 _ _ => []
  | .movIR16 _ data => [highByte data]
  | .movIRM _ _ => []

/-- The bytes of an instruction in stream order. For movDirect and movIRM these are the two bytes of the window, the only
ones the block reads; the forms have no length (R79, R161). DESIGN CHOICE (log entry 12). -/
def encode (i : Instr) : List Byte :=
  highByte i.window :: lowByte i.window :: i.tail

/-! ### The opcode table's rows (R79) -/

/-- The ten rows of opcode_table.json. -/
inductive Form where
  | rr | m0a | m0b | m0c | direct | m8 | m16 | ir8 | ir16 | irm
  deriving DecidableEq, Repr

/-- One row of opcode_table.json: its window mask and match. -/
structure FormRow where
  form : Form
  mask : Word
  pattern : Word
  deriving DecidableEq, Repr

/-- opcode_table.json's masks and matches, in its order. -/
def formTab : List FormRow :=
  [⟨.rr, 0xFCC0#16, 0x88C0#16⟩, ⟨.m0a, 0xFCC4#16, 0x8800#16⟩, ⟨.m0b, 0xFCC6#16, 0x8804#16⟩,
   ⟨.m0c, 0xFCC7#16, 0x8807#16⟩, ⟨.direct, 0xFCC7#16, 0x8806#16⟩, ⟨.m8, 0xFCC0#16, 0x8840#16⟩,
   ⟨.m16, 0xFCC0#16, 0x8880#16⟩, ⟨.ir8, 0xF800#16, 0xB000#16⟩, ⟨.ir16, 0xF800#16, 0xB800#16⟩,
   ⟨.irm, 0xFE00#16, 0xC600#16⟩]

/-- Does a window match a row? -/
def rowMatches (W : Word) (r : FormRow) : Bool := (W &&& r.mask) == r.pattern

/-- The row an instruction belongs to. -/
def Instr.form : Instr → Form
  | .movRR _ _ _ _ => .rr
  | .movM0a _ _ _ _ => .m0a
  | .movM0b _ _ _ _ => .m0b
  | .movM0c _ _ _ => .m0c
  | .movDirect _ _ _ => .direct
  | .movM8 _ _ _ _ _ => .m8
  | .movM16 _ _ _ _ _ => .m16
  | .movIR8 _ _ => .ir8
  | .movIR16 _ _ => .ir16
  | .movIRM _ _ => .irm

/-! ### Opcode-table words (log entry 7) -/

/-- The stream bytes of an opcode-table word, up to the longest instruction. The table's word is the 16-bit window with
byte 0 in bits 15:8 (30_encoding.md R72); byte 2 and byte 3 count on from it, in bits 23:16 and 31:24. -/
def tableBytes (nbits w : Nat) : List Byte :=
  [BitVec.ofNat 8 (w % 2 ^ nbits / 2 ^ 8), BitVec.ofNat 8 (w % 2 ^ nbits),
   BitVec.ofNat 8 (w % 2 ^ nbits / 2 ^ 16), BitVec.ofNat 8 (w % 2 ^ nbits / 2 ^ 24)]

/-- The instruction the decoder reads from an opcode-table word. -/
def decodeTableWord (nbits w : Nat) : Option Instr :=
  match decode (tableBytes nbits w) with
  | .ok (i, _) => some i
  | .error _ => none

end Sys2Proof
end

