-- ==== Sys2Proof/Config.lean ====
section
/-! DEFINITION. What is fixed for the machine (00_scope.md R8). The spec leaves no value open that a step computes; the
one free value is a host reading (log entry 16). Of the OPEN parameters, `N` is a field of State, `CURSOR_W` is an argument of the host port
(log entry 8), and no rule depends on `STEP_LATENCY` (log entry 9). -/

namespace Sys2Proof

/-- The shortest instruction, `MIN_LEN` (R8): the two bytes of the window. -/
def Config.minLen : Nat := 2

/-- The longest instruction, `MAX_LEN` (R8). -/
def Config.maxLen : Nat := 4

/-- What an offset below `N` reads as when the cell list does not list it: the byte 0x00.
DESIGN CHOICE (log entry 1): unsafe only if a host starts a run with an `N` beyond what it loaded. -/
def Config.unlistedByte : Byte := 0x00#8

/-- What ERR_WINDOW reads when ERR.kind is not 0 and window_valid is 0, which is after a one-byte TruncatedStream. FREE
VALUE (DESIGN CHOICE, log entry 16): 10_state.md R32 gives the reading 0 only for ERR.kind = 0 and is silent here, so the
model lets it depend on the stream and the failing offset in a way nothing says. -/
opaque Config.errWindowAbsent (stream : List (Nat × Byte)) (offset : Nat) : Word

end Sys2Proof
end

