-- ==== Sys2Proof/Machine/State.lean ====
section
/-! DEFINITION. The state of the decoder block with its inputs, the reasons a step can stop, and the state right after
reset (10_state.md R20, R24, R26, R28, R34). -/

namespace Sys2Proof.Machine

/-- The input stream's bytes as (offset, byte) pairs in one canonical form (`Memory.wf`). -/
abbrev Memory := List Host.Cell

/-- The canonical form of a stream of length `n`: offsets strictly rising and below `n`, and no entry equal to what an
unlisted offset reads as. -/
abbrev Memory.wf (m : Memory) (n : Nat) : Prop :=
  (m.map Prod.fst).Pairwise (· < ·) ∧ ∀ c ∈ m, c.1 < n ∧ c.2 ≠ Config.unlistedByte

/-- The status register (10_state.md R24). -/
inductive Status where
  /-- A step is enabled. -/
  | scanning
  /-- The cursor reached `N` without failure. Terminal. -/
  | done
  /-- A step raised a failure. Terminal; `err` holds it (92_eei_decisions.md D7, log entry 14). -/
  | failed
  deriving DecidableEq, Repr

/-- The block's state (10_state.md R20) and its inputs `stream`, `N` and `reset` (R29). -/
structure State where
  /-- The bytes of `stream[0..N-1]` (20_memory.md R50). An input, which the block only reads. -/
  stream : Memory
  /-- `N`, the stream length (00_scope.md R8). An input. -/
  streamLen : Nat
  /-- The `reset` input: true while asserted (70_reset_and_hazards.md R230; log entry 4). -/
  resetLine : Bool
  /-- The program counter: the byte offset into the stream (R25). -/
  cursor : Nat
  /-- R24. -/
  status : Status
  /-- The failure, or nothing (R26). -/
  err : Option ErrRec
  /-- The records emitted since reset, in order (R28). -/
  outLog : List Record
  deriving DecidableEq, Repr

/-- Why the machine stops. The spec's three failures are no stops: they are states the block enters (60_exceptions.md
R205). -/
inductive Fault where
  /-- Raised by `memRead` for an offset at or past `N`, which does not exist. Safe: 20_memory.md R53 says that no step
  reads there, and an obligation says that no step of the model answers this fault. -/
  | readOutsideStream (offset : Nat)
  deriving DecidableEq, Repr

/-- Why an instruction has no meaning. -/
inductive Refusal where
  /-- Reserved for an arm of `exec` with no meaning yet. No arm answers it: every row of the table has its meaning.
  Safe. -/
  | notModelled (mnemonic : String)
  deriving DecidableEq, Repr

/-- The status right after reset: Done on an empty stream, else Scanning (R34). -/
def resetStatus (n : Nat) : Status := if n = 0 then .done else .scanning

/-- The machine right after reset (R34): cursor 0, no failure, an empty log, the status by `N`. DESIGN CHOICE (log
entries 2 and 4): nothing has been loaded, so `N` is 0 and the status is Done; the reset line is deasserted. -/
def State.reset : State :=
  { stream := [], streamLen := 0, resetLine := false, cursor := 0, status := resetStatus 0, err := none, outLog := [] }

end Sys2Proof.Machine
end

