-- ==== Sys2Proof/Machine/Ops.lean ====
section
/-! DEFINITION. The named operations over the stream and the block's registers: reading the stream (00_scope.md R13),
emitting a record and advancing (44_stream_advance.md R176), entering a failure (60_exceptions.md R205) and reset, the
only way back (R206, 70_reset_and_hazards.md R231). -/

namespace Sys2Proof.Machine

/-! ### The stream -/

/-- The byte a cell list holds at an offset. -/
def Memory.read : Memory → Nat → Byte
  | [], _ => Config.unlistedByte
  | (k, v) :: rest, a => if k = a then v else Memory.read rest a

/-- Put a byte at an offset, keeping the canonical form. Used where the host loads the stream, never by the block
(20_memory.md R51). -/
def Memory.write : Memory → Nat → Byte → Memory
  | [], a, b => if b = Config.unlistedByte then [] else [(a, b)]
  | (k, v) :: rest, a, b =>
    if k < a then (k, v) :: Memory.write rest a b
    else
      if k = a then (if b = Config.unlistedByte then rest else (a, b) :: rest)
      else if b = Config.unlistedByte then (k, v) :: rest else (a, b) :: (k, v) :: rest

/-- Put bytes at consecutive offsets from `a`. -/
def Memory.writeBytes : Memory → Nat → List Byte → Memory
  | m, _, [] => m
  | m, a, b :: bs => Memory.writeBytes (Memory.write m a b) (a + 1) bs

/-- The stream that holds exactly these bytes from offset 0. -/
def Memory.ofBytes (bytes : List Byte) : Memory := Memory.writeBytes [] 0 bytes

/-- `MemRead(a, 1)` (R13): defined only for `0 <= a < N`. -/
def memRead (s : State) (a : Nat) : Except Fault Byte :=
  if a < s.streamLen then .ok (s.stream.read a) else .error (.readOutsideStream a)

/-- The `n` bytes at offsets `a` to `a + n - 1`, each a `MemRead(_, 1)`. -/
def memReadBytes (s : State) : Nat → Nat → Except Fault (List Byte)
  | _, 0 => .ok []
  | a, n + 1 =>
    match memRead s a with
    | .error f => .error f
    | .ok b =>
      match memReadBytes s (a + 1) n with
      | .error f => .error f
      | .ok bs => .ok (b :: bs)

/-- `MemRead(a, 2)` (R13): the byte at `a` in the high bits. Builds the window (30_encoding.md R72). -/
def memReadWindow (s : State) (a : Nat) : Except Fault Word :=
  match memRead s a with
  | .error f => .error f
  | .ok b0 =>
    match memRead s (a + 1) with
    | .error f => .error f
    | .ok b1 => .ok (bytePair b0 b1)

/-- `MemReadLE16(a)` (R13, 20_memory.md R52): the byte at `a` in the low bits. -/
def memReadLE16 (s : State) (a : Nat) : Except Fault Word :=
  match memRead s a with
  | .error f => .error f
  | .ok lo =>
    match memRead s (a + 1) with
    | .error f => .error f
    | .ok hi => .ok (bytePair hi lo)

/-- How many bytes remain at the cursor, `N - cursor`. -/
def State.avail (s : State) : Nat := s.streamLen - s.cursor

/-! ### The registers -/

/-- Emit a record and advance past it (44_stream_advance.md R176). `err` is not written. -/
def State.emitAdvance (s : State) (rec : Record) : State :=
  { s with
    outLog := s.outLog ++ [rec]
    cursor := s.cursor + rec.len
    status := if s.cursor + rec.len = s.streamLen then .done else .scanning }

/-- Enter a failure (60_exceptions.md R205, 44_stream_advance.md R177): write `err` and `status`, nothing else. This is
the block's only exception entry. -/
def State.enterFailure (s : State) (kind : ErrKind) (window : Option Word) : State :=
  { s with
    err := some { kind := kind, offset := s.cursor, window := window }
    status := .failed }

/-- Hold the reset values (10_state.md R34, 70_reset_and_hazards.md R230); the stream and `N` are kept. The only way out
of a failure: the block has no return from one (60_exceptions.md R206). -/
def State.holdReset (s : State) : State :=
  { s with cursor := 0, status := resetStatus s.streamLen, err := none, outLog := [] }

/-! ### What a step ends in -/

/-- `raise Fail(kind, info)` (R13). -/
def raiseFail (kind : ErrKind) (window : Option Word) (s : State) : Host.Outcome State Fault Refusal :=
  .next (s.enterFailure kind window)

/-- The end of every class decode (41_mov_regmem.md R135, 42_mov_imm_reg.md R152): TruncatedStream when the instruction
does not lie inside the stream (44_stream_advance.md R174), else emit its record and advance (R176). The fetch makes the
same check; R178 lets either place hold it (log entry 13). -/
def emitChecked (W : Word) (rec : Record) (s : State) : Host.Outcome State Fault Refusal :=
  if s.avail < rec.len then raiseFail .truncatedStream (some W) s else .next (s.emitAdvance rec)

end Sys2Proof.Machine
end

