-- ==== Sys2Proof/Machine/Operands.lean ====
section
/-! DEFINITION. The operand resolver: register file mapper, effective-address calculator, displacement and immediate
assembly, the direction rule (40_operand_resolver.md). All functions are pure (R113). -/

namespace Sys2Proof.Machine

/-! ### Register file mapper -/

/-- `REGTAB` (10_state.md R21), in index order. -/
def regTab : List Reg :=
  [.al, .ax, .cl, .cx, .dl, .dx, .bl, .bx, .ah, .sp, .ch, .bp, .dh, .si, .bh, .di]

/-- The table has one name for each 4-bit index. -/
theorem regTab_length : regTab.length = 16 := rfl

/-- `REGTAB[i]`. -/
def regAt (i : BitVec 4) : Reg := regTab[i.toNat]'(by rw [regTab_length]; exact i.isLt)

/-- `regOf` (R100): `REGTAB[(f << 1) | w]`. -/
def regOf (f : BitVec 3) (w : BitVec 1) : Reg := regAt ((f.setWidth 4 <<< 1) ||| w.setWidth 4)

/-- The width bit of a register name: 0 for an 8-bit name, 1 for a 16-bit name (R101). -/
def regWidth : Reg → BitVec 1
  | .al | .cl | .dl | .bl | .ah | .ch | .dh | .bh => 0#1
  | .ax | .cx | .dx | .bx | .sp | .bp | .si | .di => 1#1

/-- The 3-bit field of a register name, `ix` (41_mov_regmem.md R136). -/
def regIx : Reg → BitVec 3
  | .al | .ax => 0#3
  | .cl | .cx => 1#3
  | .dl | .dx => 2#3
  | .bl | .bx => 3#3
  | .ah | .sp => 4#3
  | .ch | .bp => 5#3
  | .dh | .si => 6#3
  | .bh | .di => 7#3

/-- A register operand from a field and the width bit. -/
def regOperand (f : BitVec 3) (w : BitVec 1) : Operand := .reg (regOf f w)

/-! ### Effective-address calculator -/

/-- `EATAB` (10_state.md R22), in the order of `rm`. -/
def eaTab : List EABase := [.bxSi, .bxDi, .bpSi, .bpDi, .si, .di, .bp, .bx]

/-- The table has one base combination for each `rm`. -/
theorem eaTab_length : eaTab.length = 8 := rfl

/-- `EATAB[rm]` (R103). -/
def eaBase (rm : BitVec 3) : EABase := eaTab[rm.toNat]'(by rw [eaTab_length]; exact rm.isLt)

/-- Sign extension of a byte to 16 bits, `sext_16` (00_scope.md R12, R105). -/
def sext16 (b : Byte) : SWord := b.signExtend 16

/-- The signed reading of a 16-bit pattern, `signed16` (R12, R106): the value with that two's-complement pattern. -/
def signed16 (u : Word) : SWord := u

/-- The 8-bit displacement of mod = 01 (R104). -/
def disp8 (b : Byte) : Disp := .d8 (sext16 b)

/-- The 16-bit displacement of mod = 10 (R104, R106). -/
def disp16 (u : Word) : Disp := .d16 (signed16 u)

/-- The effective address of mod = 00 (R103, R104): no displacement, and none at all for rm = 110 (R107). -/
def effAddrNoDisp (rm : BitVec 3) : Option EffAddr :=
  if rm = 6#3 then none else some ⟨eaBase rm, .none⟩

/-- A memory operand with a displacement, mod = 01 or 10: every `rm` has one (R103, R107). -/
def memOperand (rm : BitVec 3) (disp : Disp) : Operand := .mem ⟨eaBase rm, disp⟩

/-! ### Direction and records -/

/-- `order` (R108): `(dst, src)`; d = 1 means the `reg` field names the destination. -/
def order (d : BitVec 1) (regOp rmOp : Operand) : Operand × Operand :=
  if d = 1#1 then (regOp, rmOp) else (rmOp, regOp)

/-- The record of a RegMemToFromReg instruction from its two operands (41_mov_regmem.md R130 to R134). -/
def regMemRecord (d : BitVec 1) (regOp rmOp : Operand) (len : Nat) : Record :=
  { mnemonic := .mov, dst := (order d regOp rmOp).1, src := (order d regOp rmOp).2, len := len }

/-- The record of an ImmediateToReg instruction (42_mov_imm_reg.md R150, R151). -/
def immRegRecord (reg : BitVec 3) (w : BitVec 1) (v : SWord) (len : Nat) : Record :=
  { mnemonic := .mov, dst := regOperand reg w, src := .imm v, len := len }

/-- The end of the no-displacement forms (R131): with no effective address the failure is NotImplemented (R132, R135). -/
def emitNoDisp (W : Word) (d w : BitVec 1) (reg rm : BitVec 3) (s : State) : Host.Outcome State Fault Refusal :=
  match effAddrNoDisp rm with
  | none => raiseFail .notImplemented (some W) s
  | some ea => emitChecked W (regMemRecord d (regOperand reg w) (.mem ea) 2) s

end Sys2Proof.Machine
end

