-- ==== Sys2Proof/Machine/ImmReg.lean ====
section
/-! DEFINITION. The meanings of the ImmediateToReg rows (42_mov_imm_reg.md). -/

namespace Sys2Proof.Machine

/-- MOV_IR8, immediate to an 8-bit register (R150): the byte is sign-extended even so (40_operand_resolver.md R111). -/
def execMovIR8 (reg : BitVec 3) (data : Byte) (s : State) : Host.Outcome State Fault Refusal :=
  emitChecked (Instr.movIR8 reg data).window (immRegRecord reg 0#1 (sext16 data) 2) s

/-- MOV_IR16, immediate to a 16-bit register (R151). -/
def execMovIR16 (reg : BitVec 3) (data : Word) (s : State) : Host.Outcome State Fault Refusal :=
  emitChecked (Instr.movIR16 reg data).window (immRegRecord reg 1#1 (signed16 data) 3) s

end Sys2Proof.Machine
end

