-- ==== Sys2Proof/Machine/ImmRegMem.lean ====
section
/-! DEFINITION. The meaning of the ImmediateToRegMem row (43_mov_imm_regmem.md). -/

namespace Sys2Proof.Machine

/-- MOV_IRM: NotImplemented always, from the window alone, whatever byte 1 holds (R160). No layout, no length (R161). -/
def execMovIRM (w : BitVec 1) (byte1 : Byte) (s : State) : Host.Outcome State Fault Refusal :=
  raiseFail .notImplemented (some (Instr.movIRM w byte1).window) s

end Sys2Proof.Machine
end

