-- ==== Sys2Proof/Machine/RegMem.lean ====
section
/-! DEFINITION. The meanings of the RegMemToFromReg rows (41_mov_regmem.md). The effect of an instruction is the decode:
the record emitted and how far the cursor moves; the MOV itself is never performed (00_scope.md R7). -/

namespace Sys2Proof.Machine

/-- MOV_RR, register mode (R130). -/
def execMovRR (d w : BitVec 1) (reg rm : BitVec 3) (s : State) : Host.Outcome State Fault Refusal :=
  emitChecked (Instr.movRR d w reg rm).window (regMemRecord d (regOperand reg w) (regOperand rm w) 2) s

/-- MOV_M0_a, memory mode without displacement, rm in 000..011 (R131). -/
def execMovM0a (d w : BitVec 1) (reg rm : BitVec 3) (s : State) : Host.Outcome State Fault Refusal :=
  emitNoDisp (Instr.movM0a d w reg rm).window d w reg rm s

/-- MOV_M0_b, memory mode without displacement, rm in 100, 101 (R131). -/
def execMovM0b (d w : BitVec 1) (reg rm : BitVec 3) (s : State) : Host.Outcome State Fault Refusal :=
  emitNoDisp (Instr.movM0b d w reg rm).window d w reg rm s

/-- MOV_M0_c, memory mode without displacement, rm = 111 (R131). -/
def execMovM0c (d w : BitVec 1) (reg : BitVec 3) (s : State) : Host.Outcome State Fault Refusal :=
  emitNoDisp (Instr.movM0c d w reg).window d w reg 7#3 s

/-- MOV_DIRECT, the direct-address form: NotImplemented always, from the window alone (R132, 44_stream_advance.md R173).
The spec's own decision (92_eei_decisions.md D4, log entry 10). -/
def execMovDirect (d w : BitVec 1) (reg : BitVec 3) (s : State) : Host.Outcome State Fault Refusal :=
  raiseFail .notImplemented (some (Instr.movDirect d w reg).window) s

/-- MOV_M8, memory mode with an 8-bit displacement (R133). -/
def execMovM8 (d w : BitVec 1) (reg rm : BitVec 3) (disp : Byte) (s : State) : Host.Outcome State Fault Refusal :=
  emitChecked (Instr.movM8 d w reg rm disp).window
    (regMemRecord d (regOperand reg w) (memOperand rm (disp8 disp)) 3) s

/-- MOV_M16, memory mode with a 16-bit displacement (R134). -/
def execMovM16 (d w : BitVec 1) (reg rm : BitVec 3) (disp : Word) (s : State) : Host.Outcome State Fault Refusal :=
  emitChecked (Instr.movM16 d w reg rm disp).window
    (regMemRecord d (regOperand reg w) (memOperand rm (disp16 disp)) 4) s

end Sys2Proof.Machine
end

