-- ==== Sys2Proof/Machine/Dispatch.lean ====
section
/-! DEFINITION. One arm per constructor of Instr, each a direct call of its meaning. -/

namespace Sys2Proof.Machine

def exec (i : Instr) (s : State) : Host.Outcome State Fault Refusal :=
  match i with
  | .movRR d w reg rm => Sys2Proof.Machine.execMovRR d w reg rm s
  | .movM0a d w reg rm => Sys2Proof.Machine.execMovM0a d w reg rm s
  | .movM0b d w reg rm => Sys2Proof.Machine.execMovM0b d w reg rm s
  | .movM0c d w reg => Sys2Proof.Machine.execMovM0c d w reg s
  | .movDirect d w reg => Sys2Proof.Machine.execMovDirect d w reg s
  | .movM8 d w reg rm disp => Sys2Proof.Machine.execMovM8 d w reg rm disp s
  | .movM16 d w reg rm disp => Sys2Proof.Machine.execMovM16 d w reg rm disp s
  | .movIR8 reg data => Sys2Proof.Machine.execMovIR8 reg data s
  | .movIR16 reg data => Sys2Proof.Machine.execMovIR16 reg data s
  | .movIRM w byte1 => Sys2Proof.Machine.execMovIRM w byte1 s

end Sys2Proof.Machine
end

