-- ==== Sys2Proof/Machine/Fetch.lean ====
section
/-! DEFINITION. One step in Scanning (44_stream_advance.md R171 to R177): read the bytes the instruction at the cursor
needs, decode them, and run what they decode to; and the bytes an opcode-table word stands for. -/

namespace Sys2Proof.Machine

/-- Read and decode the instruction at the cursor: the short-window check (R171), the window and dispatch (R172), the
length check (R174), and the decode (R175). A fault is a read outside the stream; a rejection names the failure. Only the
bytes R54 names are read. The order is 92_eei_decisions.md D5 (log entry 10). -/
def fetch (s : State) : Except Fault (Except DecodeError Instr) :=
  if s.avail < 2 then .ok (.error .shortWindow)
  else
    match memReadWindow s s.cursor with
    | .error f => .error f
    | .ok W =>
      match bytesNeeded W with
      | none => .ok (.error (.unsupported W))
      | some n =>
        if s.avail < n then .ok (.error (.truncated W))
        else
          match memReadBytes s s.cursor n with
          | .error f => .error f
          | .ok bytes =>
            match decode bytes with
            | .ok (i, _) => .ok (.ok i)
            | .error e => .ok (.error e)

/-- One step of a block in Scanning: run the decoded instruction, or enter the failure of the rejection (R177). -/
def stepScanning (s : State) : Host.Outcome State Fault Refusal :=
  match fetch s with
  | .error f => .fault f
  | .ok (.error e) => raiseFail e.kind e.window s
  | .ok (.ok i) => exec i s

/-- A step in any state. While reset is asserted the state is held at the reset values (70_reset_and_hazards.md R230). In
Done and Failed the block is quiescent and all state survives (R170, 60_exceptions.md R217; DEDUCED, log entry 3). -/
def stepBlock (s : State) : Host.Outcome State Fault Refusal :=
  if s.resetLine = true then .next s.holdReset
  else
    match s.status with
    | .scanning => stepScanning s
    | .done => .next s
    | .failed => .next s

/-- Place bytes at the cursor of a block that is about to scan them: the stream holds them there, `N` reaches at least
past them, reset is deasserted and the status is Scanning (log entry 2). -/
def State.placeAtCursor (s : State) (bytes : List Byte) : State :=
  { s with
    stream := s.stream.writeBytes s.cursor bytes
    streamLen := max s.streamLen (s.cursor + bytes.length)
    resetLine := false
    status := .scanning }

end Sys2Proof.Machine
end

