-- ==== Sys2Proof/Machine/Step.lean ====
section
/-! DEFINITION. One step of the machine, and the placing of one opcode-table word where the step fetches it. -/

namespace Sys2Proof.Machine

/-- One step (44_stream_advance.md R170, R178), atomic (92_eei_decisions.md D11, log entry 15). -/
def step (s : State) : Host.Outcome State Fault Refusal := stepBlock s

/-- `s` with an opcode-table word's instruction at the cursor, the bits above `nbits` zero up to the longest instruction,
so that the next step fetches and runs it. Stands for the host's load (log entry 2). -/
def State.withFetchWord (s : State) (nbits w : Nat) : State := s.placeAtCursor (tableBytes nbits w)

end Sys2Proof.Machine
end

