-- ==== Sys2Proof/Machine/Reference.lean ====
section
/-! DEFINITION. The spec's own pseudocode for one step, transcribed (44_stream_advance.md R178 with the class decodes of
41_mov_regmem.md R135 and 42_mov_imm_reg.md R152, and R136's encoder): a second description of the machine, used by the
statements and never by the step. It decodes from the window and the stream, with no Instr between. -/

namespace Sys2Proof.Machine

/-- A `MemRead(a, 1)` whose offset the pseudocode has checked already. -/
def streamAt (s : State) (a : Nat) : Byte := s.stream.read a

/-- The window at an offset (30_encoding.md R72). -/
def windowAt (s : State) (c : Nat) : Word := bytePair (streamAt s c) (streamAt s (c + 1))

/-- `dispOf` (40_operand_resolver.md R104); mod = 11 is not called. -/
def dispOf (s : State) (mod : BitVec 2) (c : Nat) : Disp :=
  if mod = 1#2 then .d8 (sext16 (streamAt s (c + 2)))
  else if mod = 2#2 then .d16 (signed16 (bytePair (streamAt s (c + 3)) (streamAt s (c + 2))))
  else .none

/-- `decodeRM` (R135). -/
def decodeRM (s : State) (W : Word) (c : Nat) : Except ErrRec Record :=
  if rmMod W = 0#2 ∧ rmRm W = 6#3 then .error ⟨.notImplemented, c, some W⟩
  else
    let len := 2 + regMemExtra (rmMod W)
    if s.streamLen - c < len then .error ⟨.truncatedStream, c, some W⟩
    else
      let regOp := Operand.reg (regOf (rmReg W) (rmW W))
      let rmOp :=
        if rmMod W = 3#2 then Operand.reg (regOf (rmRm W) (rmW W))
        else Operand.mem ⟨eaBase (rmRm W), dispOf s (rmMod W) c⟩
      .ok ⟨.mov, (order (rmD W) regOp rmOp).1, (order (rmD W) regOp rmOp).2, len⟩

/-- `decodeIR` (R152), with `immOf` (40_operand_resolver.md R110). -/
def decodeIR (s : State) (W : Word) (c : Nat) : Except ErrRec Record :=
  let len := 2 + (irW W).toNat
  if s.streamLen - c < len then .error ⟨.truncatedStream, c, some W⟩
  else
    let imm := if irW W = 1#1 then signed16 (bytePair (streamAt s (c + 2)) (irData W)) else sext16 (irData W)
    .ok ⟨.mov, .reg (regOf (irReg W) (irW W)), .imm imm, len⟩

/-- What the step decides at an offset (R178): a record, or the failure to record. -/
def decodeAt (s : State) (c : Nat) : Except ErrRec Record :=
  if s.streamLen - c < 2 then .error ⟨.truncatedStream, c, none⟩
  else
    let W := windowAt s c
    match dispatch W with
    | none => .error ⟨.unsupportedOpcode, c, some W⟩
    | some .immediateToRegMem => .error ⟨.notImplemented, c, some W⟩
    | some .regMemToFromReg => decodeRM s W c
    | some .immediateToReg => decodeIR s W c

/-- `step` of R178, defined there only when the status is Scanning. -/
def refStep (s : State) : State :=
  match decodeAt s s.cursor with
  | .error e => { s with status := .failed, err := some e }
  | .ok rec =>
    { s with
      outLog := s.outLog ++ [rec]
      cursor := s.cursor + rec.len
      status := if s.cursor + rec.len = s.streamLen then .done else .scanning }

/-- `encodeRR` (R136): the two bytes of a register-mode instruction from its direction bit and its registers. -/
def encodeRR (d : BitVec 1) (dst src : Reg) : Byte × Byte :=
  let regIx' := if d = 1#1 then regIx dst else regIx src
  let rmIx := if d = 1#1 then regIx src else regIx dst
  (0x88#8 ||| (d.setWidth 8 <<< 1) ||| (regWidth dst).setWidth 8,
   0xC0#8 ||| (regIx'.setWidth 8 <<< 3) ||| rmIx.setWidth 8)

end Sys2Proof.Machine
end

