-- ==== Sys2Proof/Machine/HostPort.lean ====
section
/-! DEFINITION. What the host can do to the block between steps, and what it reads: the control and load interface
(10_state.md R29, 70_reset_and_hazards.md R230 to R233, R240, R243) and the register map (10_state.md R32). `cw` is the
open parameter `CURSOR_W` (00_scope.md R8; log entry 8). -/

namespace Sys2Proof.Machine

/-- The host's moves (R243). Observing has no effect and is no move. -/
inductive HostMove where
  /-- Assert `reset`, at any time (R231). -/
  | assertReset
  /-- Deassert `reset`: a run starts (R230, R233). -/
  | deassertReset
  /-- Load the stream and `N` (R233). -/
  | load (bytes : List Byte)
  deriving DecidableEq, Repr

/-- The block over a freshly loaded stream, held in reset or right after it: R34's values over these bytes. -/
def State.loaded (s : State) (bytes : List Byte) : State :=
  State.holdReset { s with stream := Memory.ofBytes bytes, streamLen := bytes.length }

/-- A host move, or `none` where the host has no such move: the stream and `N` are written only while the block is held in
reset (R32, R233, R240), and `N` satisfies `N <= 2^CURSOR_W - 1` (R8; log entry 11). -/
def hostMove (cw : Nat) (m : HostMove) (s : State) : Option State :=
  match m with
  | .assertReset => some { s.holdReset with resetLine := true }
  | .deassertReset => some { s with resetLine := false }
  | .load bytes =>
    if s.resetLine = true ∧ bytes.length ≤ 2 ^ cw - 1 then some (s.loaded bytes) else none

/-! ### Register map (R32) -/

/-- STATUS, bits 1:0. -/
def regStatus (s : State) : BitVec 2 :=
  match s.status with
  | .scanning => 0#2
  | .done => 1#2
  | .failed => 2#2

/-- The code of a failure kind in ERR.kind. -/
def errKindCode : ErrKind → BitVec 2
  | .unsupportedOpcode => 1#2
  | .notImplemented => 2#2
  | .truncatedStream => 3#2

/-- ERR.kind, bits 1:0; 0 when there is no failure. -/
def regErrKind (s : State) : BitVec 2 :=
  match s.err with
  | none => 0#2
  | some e => errKindCode e.kind

/-- ERR.window_valid, bit 2. -/
def regErrWindowValid (s : State) : BitVec 1 :=
  match s.err with
  | none => 0#1
  | some e => if e.window.isSome then 1#1 else 0#1

/-- ERR, bits 2:0. -/
def regErr (s : State) : BitVec 3 := regErrWindowValid s ++ regErrKind s

/-- ERR_OFFSET; 0 when there is no failure. -/
def regErrOffset (cw : Nat) (s : State) : BitVec cw :=
  match s.err with
  | none => 0#cw
  | some e => BitVec.ofNat cw e.offset

/-- ERR_WINDOW: the window, byte 0 in bits 15:8, and 0 when there is no failure. For a failure that has no window the spec
gives no reading, and the model's is a free value (DESIGN CHOICE, log entry 16). -/
def regErrWindow (s : State) : Word :=
  match s.err with
  | none => 0#16
  | some e => e.window.getD (Config.errWindowAbsent s.stream e.offset)

/-- CURSOR. -/
def regCursor (cw : Nat) (s : State) : BitVec cw := BitVec.ofNat cw s.cursor

/-- LEN. -/
def regLen (cw : Nat) (s : State) : BitVec cw := BitVec.ofNat cw s.streamLen

end Sys2Proof.Machine
end

