-- ==== Sys2Proof/Machine/Run.lean ====
section
/-! DEFINITION. A run: steps from the reset state over a loaded stream, and the functional result (44_stream_advance.md
R179, R181). -/

namespace Sys2Proof.Machine

/-- `reset-state(bytes)` (R181): right after reset over these bytes. -/
def resetState (bytes : List Byte) : State := State.reset.loaded bytes

/-- `k` steps, stopping at a fault or a refusal. -/
def runSteps : Nat → State → Host.Outcome State Fault Refusal
  | 0, s => .next s
  | k + 1, s =>
    match step s with
    | .next t => runSteps k t
    | .fault f => .fault f
    | .refused r => .refused r

/-- The most steps a run over `n` bytes takes, `ceil(N / 2)` (R179). -/
def stepBound (n : Nat) : Nat := (n + 1) / 2

/-- `run-to-end(reset-state(bytes))` (R181). -/
def runToEnd (bytes : List Byte) : Host.Outcome State Fault Refusal :=
  runSteps (stepBound bytes.length) (resetState bytes)

/-- What `decode(bytes)` answers, from the end state of its run (R181): the log when Done, else the error. `none` stands
for an end state that is neither. -/
def resultOf (s : State) : Option (Except ErrRec (List Record)) :=
  match s.status with
  | .done => some (.ok s.outLog)
  | .failed => s.err.map .error
  | .scanning => none

/-- `decode(bytes)` (R181). -/
def decodeStream (bytes : List Byte) : Option (Except ErrRec (List Record)) :=
  match runToEnd bytes with
  | .next s => resultOf s
  | .fault _ => none
  | .refused _ => none

end Sys2Proof.Machine
end

