-- ==== Sys2Proof/Safety.lean ====
section
/-! DEFINITION. The terms the statements use: the next state of an outcome, well-formed records, the invariant of
10_state.md R35, what a log says of the stream, and reachability. -/

namespace Sys2Proof.Machine

/-- The next state of an outcome, or nothing for a fault or a refusal. -/
def nextOf : Host.Outcome State Fault Refusal → Option State
  | .next s => some s
  | .fault _ => none
  | .refused _ => none

/-- A step is enabled: reset deasserted and status Scanning (44_stream_advance.md R170). -/
abbrev State.enabled (s : State) : Prop := s.resetLine = false ∧ s.status = .scanning

/-- The transition of a successful step as the statements write it (44_stream_advance.md R176): the record
`{MOV, dst, src, len}` at the end of the log, the cursor past the instruction, Done exactly when the cursor lands on
`N`; nothing else changes. -/
def emitted (s : State) (dst src : Operand) (len : Nat) : State :=
  { s with
    outLog := s.outLog ++ [⟨.mov, dst, src, len⟩]
    cursor := s.cursor + len
    status := if s.cursor + len = s.streamLen then .done else .scanning }

/-- The transition of a failing step as the statements write it (44_stream_advance.md R177): `err` and `status`; nothing
else changes. -/
def failedWith (s : State) (kind : ErrKind) (window : Option Word) : State :=
  { s with err := some ⟨kind, s.cursor, window⟩, status := .failed }

/-- The bytes from the cursor to the end of the stream. -/
def State.remaining (s : State) : List Byte := (List.range s.avail).map fun k => streamAt s (s.cursor + k)

/-- The sum of `len` over a log (10_state.md R35). -/
def logLen (log : List Record) : Nat := (log.map Record.len).sum

/-- A register and a memory operand form a RegMemToFromReg pair of this length: the length is 2, 3 or 4 by the
displacement's case, an 8-bit displacement is in [-128, 127] (00_scope.md R14), and `[bp]` alone does not occur
(40_operand_resolver.md R107). -/
def memLenOk (ea : EffAddr) (len : Nat) : Bool :=
  match ea.disp with
  | .none => decide (len = 2 ∧ ea.base ≠ .bp)
  | .d8 v => decide (len = 3 ∧ -128 ≤ v.toInt ∧ v.toInt ≤ 127)
  | .d16 _ => decide (len = 4)

/-- A record some instruction of the subset decodes to: two registers of one width (R109), a register and a memory operand
in either order, or an immediate into a register, each with its length (41_mov_regmem.md R137, 42_mov_imm_reg.md R150,
R151). -/
def recordWf (r : Record) : Bool :=
  match r.dst, r.src with
  | .reg a, .reg b => decide (r.len = 2 ∧ regWidth a = regWidth b)
  | .reg _, .mem ea => memLenOk ea r.len
  | .mem ea, .reg _ => memLenOk ea r.len
  | .reg a, .imm v =>
    decide ((regWidth a = 0#1 ∧ r.len = 2 ∧ -128 ≤ v.toInt ∧ v.toInt ≤ 127) ∨ (regWidth a = 1#1 ∧ r.len = 3))
  | _, _ => false

/-- The window an `ErrRec` at the cursor holds: present when at least two bytes remained (10_state.md R26). -/
def State.errWindow (s : State) : Option Word :=
  if s.avail < 2 then none else some (windowAt s s.cursor)

/-- The invariant of the block (10_state.md R35), with the stream's canonical form, the records' well-formedness, the
failure's window (R26) and the reset values while reset is asserted (70_reset_and_hazards.md R230). -/
structure State.Inv (s : State) : Prop where
  memory : s.stream.wf s.streamLen
  cursorInStream : s.cursor ≤ s.streamLen
  cursorIsLogLength : s.cursor = logLen s.outLog
  doneAtEnd : s.status = .done → s.cursor = s.streamLen ∧ s.err = none
  scanningInside : s.status = .scanning → s.cursor < s.streamLen ∧ s.err = none
  failedInside : s.status = .failed →
    s.cursor < s.streamLen ∧ ∃ kind, s.err = some ⟨kind, s.cursor, s.errWindow⟩
  recordsWf : ∀ r ∈ s.outLog, recordWf r = true
  heldInReset : s.resetLine = true → s.holdReset = s

/-- The log is the decode of the stream from offset `c` up to offset `c'`, record by record (20_memory.md R63). -/
def logDecodes (s : State) : Nat → List Record → Nat → Prop
  | c, [], c' => c = c'
  | c, r :: rs, c' => decodeAt s c = .ok r ∧ logDecodes s (c + r.len) rs c'

/-- The block's history is the decode of the stream before the cursor, and a failure is the one the spec gives at the
cursor (60_exceptions.md R205: the failure is precise). -/
def State.Precise (s : State) : Prop :=
  logDecodes s 0 s.outLog s.cursor ∧ (s.status = .failed → ∃ e, s.err = some e ∧ decodeAt s s.cursor = .error e)

/-- The states steps and host moves can reach from the state right after reset. -/
inductive Reachable (cw : Nat) : State → Prop where
  | atReset : Reachable cw State.reset
  | byStep {s t : State} : Reachable cw s → step s = .next t → Reachable cw t
  | byHost {s t : State} (m : HostMove) : Reachable cw s → hostMove cw m s = some t → Reachable cw t

end Sys2Proof.Machine
end

