-- ==== Sys2Proof/Certificates/Slice0/Obligations.lean ====
section
/-! DEFINITION. The statements about the decoder, for the provers. Each docstring names the rule or the sentence of the spec
it formalises; "derived" says that the spec marks the sentence as its own inference or decision, or that the model chose. -/

open Sys2Proof Sys2Proof.Machine

/-! ### Encoding -/

/-- Derived (R70, R79; the direct and ImmediateToRegMem rows as two-byte instructions are log entry 12, the opcode of
the latter log entry 6): every well-formed instruction, at every value of its fields, is read back from its bytes,
whatever follows them. -/
def Obligations.DecodeEncodeAgree : Prop :=
  ∀ (i : Instr) (rest : List Byte), i.wf = true → decode (encode i ++ rest) = .ok (i, rest)

/-- Derived (R70, R79; the direct and ImmediateToRegMem rows as two-byte instructions are log entry 12, the opcode of
the latter log entry 6): what the decoder answers is well formed, and its bytes are exactly the ones consumed. -/
def Obligations.EncodeDecodeAgree : Prop :=
  ∀ (bytes rest : List Byte) (i : Instr), decode bytes = .ok (i, rest) → i.wf = true ∧ bytes = encode i ++ rest

/-- Derived: one worked word of each row, written out from the formats of R70 (95_test_vectors.md S1, V11, V12, V13,
V19, S3, V28, S2, V41, V47). That the decoder answers movDirect and movIRM as instructions of two bytes, leaving what
follows, is the model's choice (DESIGN CHOICE, log entry 12): V19 and V47 give only their failures. The opcode 0xC6 is
general knowledge (92_eei_decisions.md D2, log entry 6). -/
def Obligations.SpecWordsDecode : Prop :=
  decode [0x89#8, 0xD9#8] = .ok (.movRR 0#1 1#1 3#3 1#3, []) ∧
  decode [0x8A#8, 0x00#8] = .ok (.movM0a 1#1 0#1 0#3 0#3, []) ∧
  decode [0x89#8, 0x05#8] = .ok (.movM0b 0#1 1#1 0#3 5#3, []) ∧
  decode [0x8B#8, 0x0F#8] = .ok (.movM0c 1#1 1#1 1#3, []) ∧
  decode [0x8B#8, 0x06#8, 0x00#8, 0x10#8] = .ok (.movDirect 1#1 1#1 0#3, [0x00#8, 0x10#8]) ∧
  decode [0x8B#8, 0x41#8, 0xDB#8] = .ok (.movM8 1#1 1#1 0#3 1#3 0xDB#8, []) ∧
  decode [0x8B#8, 0x80#8, 0x34#8, 0x12#8] = .ok (.movM16 1#1 1#1 0#3 0#3 0x1234#16, []) ∧
  decode [0xB1#8, 0x0C#8] = .ok (.movIR8 1#3 0x0C#8, []) ∧
  decode [0xBB#8, 0xFF#8, 0xFF#8] = .ok (.movIR16 3#3 0xFFFF#16, []) ∧
  decode [0xC6#8, 0x00#8, 0x05#8] = .ok (.movIRM 0#1 0x00#8, [0x05#8])

/-- The extractor is the formula of R71, and under its precondition the slice `word[start+width-1 : start]`. -/
def Obligations.ExtractorIsSlice : Prop :=
  ∀ (word : Word) (start width : Nat), start + width ≤ 16 →
    extractField word start width = (word.toNat >>> start) &&& ((1 <<< width) - 1) ∧
    extractField word start width = (word.extractLsb' start width).toNat

/-- Derived (R73): every field of the window is the source's field of byte 0 or byte 1. -/
def Obligations.WindowFieldsAreByteFields : Prop :=
  ∀ b0 b1 : Byte,
    rmD (bytePair b0 b1) = b0.extractLsb' 1 1 ∧ rmW (bytePair b0 b1) = b0.extractLsb' 0 1 ∧
    rmMod (bytePair b0 b1) = b1.extractLsb' 6 2 ∧ rmReg (bytePair b0 b1) = b1.extractLsb' 3 3 ∧
    rmRm (bytePair b0 b1) = b1.extractLsb' 0 3 ∧ irW (bytePair b0 b1) = b0.extractLsb' 3 1 ∧
    irReg (bytePair b0 b1) = b0.extractLsb' 0 3 ∧ irData (bytePair b0 b1) = b1

/-- Derived (R77): no window matches two entries, and no reordering of the table changes the dispatch. -/
def Obligations.DispatchOrderIrrelevant : Prop :=
  (∀ (W : Word) (c c' : OpcodeClass), c ∈ classTab → c' ∈ classTab → classMatches W c = true →
    classMatches W c' = true → c = c') ∧
  ∀ (tab : List OpcodeClass) (W : Word), tab.Perm classTab → dispatchIn tab W = dispatch W

/-- Derived (R78; the entry for 0xC6 and 0xC7 is general knowledge, log entry 6): the class is a function of byte 0. -/
def Obligations.DispatchByByteZero : Prop :=
  ∀ b0 b1 : Byte,
    dispatch (bytePair b0 b1) =
      if 0x88 ≤ b0.toNat ∧ b0.toNat ≤ 0x8B then some .regMemToFromReg
      else if b0.toNat = 0xC6 ∨ b0.toNat = 0xC7 then some .immediateToRegMem
      else if 0xB0 ≤ b0.toNat ∧ b0.toNat ≤ 0xBF then some .immediateToReg
      else none

/-- Derived (R79): the decoder answers an instruction of a row exactly when the row's mask and match admit the window;
and no window belongs to two rows of the table. For the direct and ImmediateToRegMem rows, to which R79 and R161 give
no length and no decode, an instruction answered is the model's choice (DESIGN CHOICE, log entry 12); the latter's
mask and match are general knowledge (92_eei_decisions.md D2, log entry 6). -/
def Obligations.DecoderFollowsTable : Prop :=
  (∀ (b0 b1 b2 b3 : Byte) (rest : List Byte) (f : Form),
    (∃ i r, decode (b0 :: b1 :: b2 :: b3 :: rest) = .ok (i, r) ∧ i.form = f) ↔
      ∃ row ∈ formTab, row.form = f ∧ rowMatches (bytePair b0 b1) row = true) ∧
  ∀ (W : Word) (r r' : FormRow), r ∈ formTab → r' ∈ formTab → rowMatches W r = true → rowMatches W r' = true → r = r'

/-- R83: the length as a function of the window, class by class, and none where no class or ImmediateToRegMem matches;
and an instruction that is not a form with no decode takes exactly that many bytes, 2 to 4 of them. -/
def Obligations.LengthFromWindow : Prop :=
  (∀ W : Word, W &&& 0xFC00#16 = 0x8800#16 →
    lengthOf W = some (2 + if rmMod W = 1#2 then 1 else if rmMod W = 2#2 then 2 else 0)) ∧
  (∀ W : Word, W &&& 0xF000#16 = 0xB000#16 → lengthOf W = some (2 + (irW W).toNat)) ∧
  (∀ W : Word, W &&& 0xFC00#16 ≠ 0x8800#16 → W &&& 0xF000#16 ≠ 0xB000#16 → lengthOf W = none) ∧
  ∀ (b0 b1 : Byte) (rest r : List Byte) (i : Instr),
    decode (b0 :: b1 :: rest) = .ok (i, r) → i.form ≠ .direct → i.form ≠ .irm →
    ∃ n, lengthOf (bytePair b0 b1) = some n ∧ 2 ≤ n ∧ n ≤ 4 ∧ (b0 :: b1 :: rest).length = n + r.length

/-! ### Operand resolver -/

/-- R101: register widening is a bijection, and the width bit picks the eight names of its width. -/
def Obligations.WideningIsBijective : Prop :=
  (∀ (f f' : BitVec 3) (w w' : BitVec 1), regOf f w = regOf f' w' → f = f' ∧ w = w') ∧
  (∀ r : Reg, ∃ f w, regOf f w = r) ∧
  (∀ f : BitVec 3, regOf f 0#1 ∈ [Reg.al, .cl, .dl, .bl, .ah, .ch, .dh, .bh]) ∧
  (∀ f : BitVec 3, regOf f 1#1 ∈ [Reg.ax, .cx, .dx, .bx, .sp, .bp, .si, .di])

/-- R105: the 8-bit displacement is the byte read as two's complement; 0x00 gives `D8 0`, not `None`. -/
def Obligations.Displacement8SignExtends : Prop :=
  (∀ b : Byte, ∃ v, disp8 b = .d8 v ∧
    v.toInt = if b.toNat ≤ 0x7F then (b.toNat : Int) else (b.toNat : Int) - 256) ∧
  disp8 0xFF#8 = .d8 (-1) ∧ disp8 0x7F#8 = .d8 127 ∧ disp8 0x80#8 = .d8 (-128) ∧ disp8 0xDB#8 = .d8 (-37) ∧
  disp8 0x00#8 = .d8 0

/-- R106: the 16-bit displacement is the little-endian pattern read as two's complement, every pattern valid. -/
def Obligations.Displacement16IsSigned : Prop :=
  (∀ byte2 byte3 : Byte, ∃ v, disp16 (bytePair byte3 byte2) = .d16 v ∧
    v.toInt = if byte3.toNat * 256 + byte2.toNat < 0x8000 then ((byte3.toNat * 256 + byte2.toNat : Nat) : Int)
      else ((byte3.toNat * 256 + byte2.toNat : Nat) : Int) - 0x10000) ∧
  disp16 0x1234#16 = .d16 4660 ∧ disp16 0xFFFF#16 = .d16 (-1) ∧ disp16 0x8000#16 = .d16 (-32768) ∧
  disp16 0x0000#16 = .d16 0

/-- Derived (R12, R110): sign extension is the shift left by 8 and the arithmetic shift right by 8. -/
def Obligations.SignExtensionIsShiftPair : Prop :=
  ∀ b : Byte, sext16 b = ((b.setWidth 16) <<< 8).sshiftRight 8

/-- Derived (R22, R103, R107): the eight base combinations in order; mod = 00 has an effective address for every `rm`
but 110 (92_eei_decisions.md D4, log entry 10). -/
def Obligations.EffectiveAddressTable : Prop :=
  eaBase 0#3 = .bxSi ∧ eaBase 1#3 = .bxDi ∧ eaBase 2#3 = .bpSi ∧ eaBase 3#3 = .bpDi ∧ eaBase 4#3 = .si ∧
  eaBase 5#3 = .di ∧ eaBase 6#3 = .bp ∧ eaBase 7#3 = .bx ∧
  ∀ rm : BitVec 3, effAddrNoDisp rm = if rm = 6#3 then none else some ⟨eaBase rm, .none⟩

/-! ### The instructions -/

/-- R130, register mode. First clause: the encoding. Second: the record, in every state with two bytes left; `d` = 1
makes `reg` the destination (R108). Third: every record of the form has exactly two encodings, one per value of `d`.
-/
def Obligations.MovRRResult : Prop :=
  (∀ (b0 b1 : Byte) (rest : List Byte), bytePair b0 b1 &&& 0xFCC0#16 = 0x88C0#16 →
    decode (b0 :: b1 :: rest) =
      .ok (.movRR (rmD (bytePair b0 b1)) (rmW (bytePair b0 b1)) (rmReg (bytePair b0 b1)) (rmRm (bytePair b0 b1)), rest)) ∧
  (∀ (d w : BitVec 1) (reg rm : BitVec 3) (s : State), 2 ≤ s.avail →
    exec (.movRR d w reg rm) s =
      .next (emitted s (if d = 1#1 then .reg (regOf reg w) else .reg (regOf rm w))
        (if d = 1#1 then .reg (regOf rm w) else .reg (regOf reg w)) 2)) ∧
  ∀ (d w : BitVec 1) (reg rm : BitVec 3) (d' w' : BitVec 1) (reg' rm' : BitVec 3),
    order d' (.reg (regOf reg' w')) (.reg (regOf rm' w')) = order d (.reg (regOf reg w)) (.reg (regOf rm w)) ↔
      w' = w ∧ ((d' = d ∧ reg' = reg ∧ rm' = rm) ∨ (d' ≠ d ∧ reg' = rm ∧ rm' = reg))

/-- R131, memory mode without displacement: the three rows movM0a (rm in 000..011), movM0b (rm in 100, 101), movM0c
(rm = 111), and the encoding of all three. -/
def Obligations.MovNoDisplacementResult : Prop :=
  (∀ (b0 b1 : Byte) (rest : List Byte), bytePair b0 b1 &&& 0xFCC0#16 = 0x8800#16 → rmRm (bytePair b0 b1) ≠ 6#3 →
    decode (b0 :: b1 :: rest) =
      .ok (if rmRm (bytePair b0 b1) = 7#3 then
            .movM0c (rmD (bytePair b0 b1)) (rmW (bytePair b0 b1)) (rmReg (bytePair b0 b1))
          else if (rmRm (bytePair b0 b1)).toNat ≤ 3 then
            .movM0a (rmD (bytePair b0 b1)) (rmW (bytePair b0 b1)) (rmReg (bytePair b0 b1)) (rmRm (bytePair b0 b1))
          else .movM0b (rmD (bytePair b0 b1)) (rmW (bytePair b0 b1)) (rmReg (bytePair b0 b1)) (rmRm (bytePair b0 b1)),
        rest)) ∧
  (∀ (d w : BitVec 1) (reg rm : BitVec 3) (s : State), rm.toNat ≤ 3 → 2 ≤ s.avail →
    exec (.movM0a d w reg rm) s =
      .next (emitted s (if d = 1#1 then .reg (regOf reg w) else .mem ⟨eaBase rm, .none⟩)
        (if d = 1#1 then .mem ⟨eaBase rm, .none⟩ else .reg (regOf reg w)) 2)) ∧
  (∀ (d w : BitVec 1) (reg rm : BitVec 3) (s : State), rm.toNat = 4 ∨ rm.toNat = 5 → 2 ≤ s.avail →
    exec (.movM0b d w reg rm) s =
      .next (emitted s (if d = 1#1 then .reg (regOf reg w) else .mem ⟨eaBase rm, .none⟩)
        (if d = 1#1 then .mem ⟨eaBase rm, .none⟩ else .reg (regOf reg w)) 2)) ∧
  ∀ (d w : BitVec 1) (reg : BitVec 3) (s : State), 2 ≤ s.avail →
    exec (.movM0c d w reg) s =
      .next (emitted s (if d = 1#1 then .reg (regOf reg w) else .mem ⟨.bx, .none⟩)
        (if d = 1#1 then .mem ⟨.bx, .none⟩ else .reg (regOf reg w)) 2)

/-- Derived (R132; the spec's own decision, 92_eei_decisions.md D4, log entry 10): the direct-address form fails
NotImplemented from the window alone, however few bytes follow it. -/
def Obligations.MovDirectFails : Prop :=
  (∀ (d w : BitVec 1) (reg : BitVec 3) (s : State),
    exec (.movDirect d w reg) s =
      .next (failedWith s .notImplemented (some (0b100010#6 ++ d ++ w ++ 0b00#2 ++ reg ++ 0b110#3)))) ∧
  ∀ s : State, s.enabled → 2 ≤ s.avail → windowAt s s.cursor &&& 0xFCC7#16 = 0x8806#16 →
    step s = .next (failedWith s .notImplemented (some (windowAt s s.cursor)))

/-- R133, memory mode with an 8-bit displacement: the encoding, the record for every `rm`, and TruncatedStream when
exactly two bytes remain. -/
def Obligations.MovDisplacement8Result : Prop :=
  (∀ (b0 b1 b2 : Byte) (rest : List Byte), bytePair b0 b1 &&& 0xFCC0#16 = 0x8840#16 →
    decode (b0 :: b1 :: b2 :: rest) =
      .ok (.movM8 (rmD (bytePair b0 b1)) (rmW (bytePair b0 b1)) (rmReg (bytePair b0 b1)) (rmRm (bytePair b0 b1)) b2,
        rest)) ∧
  (∀ (d w : BitVec 1) (reg rm : BitVec 3) (disp : Byte) (s : State), 3 ≤ s.avail →
    exec (.movM8 d w reg rm disp) s =
      .next (emitted s (if d = 1#1 then .reg (regOf reg w) else .mem ⟨eaBase rm, .d8 (sext16 disp)⟩)
        (if d = 1#1 then .mem ⟨eaBase rm, .d8 (sext16 disp)⟩ else .reg (regOf reg w)) 3)) ∧
  (∀ b : Byte, (sext16 b).toInt = if b.toNat ≤ 0x7F then (b.toNat : Int) else (b.toNat : Int) - 256) ∧
  ∀ s : State, s.enabled → s.avail = 2 → windowAt s s.cursor &&& 0xFCC0#16 = 0x8840#16 →
    step s = .next (failedWith s .truncatedStream (some (windowAt s s.cursor)))

/-- R134, memory mode with a 16-bit displacement, low byte first: the encoding, the record for every `rm`, and
TruncatedStream when two or three bytes remain. -/
def Obligations.MovDisplacement16Result : Prop :=
  (∀ (b0 b1 b2 b3 : Byte) (rest : List Byte), bytePair b0 b1 &&& 0xFCC0#16 = 0x8880#16 →
    decode (b0 :: b1 :: b2 :: b3 :: rest) =
      .ok (.movM16 (rmD (bytePair b0 b1)) (rmW (bytePair b0 b1)) (rmReg (bytePair b0 b1)) (rmRm (bytePair b0 b1)) (b3 ++ b2),
        rest)) ∧
  (∀ (d w : BitVec 1) (reg rm : BitVec 3) (disp : Word) (s : State), 4 ≤ s.avail →
    exec (.movM16 d w reg rm disp) s =
      .next (emitted s (if d = 1#1 then .reg (regOf reg w) else .mem ⟨eaBase rm, .d16 (signed16 disp)⟩)
        (if d = 1#1 then .mem ⟨eaBase rm, .d16 (signed16 disp)⟩ else .reg (regOf reg w)) 4)) ∧
  (∀ u : Word, (signed16 u).toInt = if u.toNat < 0x8000 then (u.toNat : Int) else (u.toNat : Int) - 0x10000) ∧
  ∀ s : State, s.enabled → 2 ≤ s.avail → s.avail < 4 → windowAt s s.cursor &&& 0xFCC0#16 = 0x8880#16 →
    step s = .next (failedWith s .truncatedStream (some (windowAt s s.cursor)))

/-- R150 (and R111), immediate to an 8-bit register: the encoding, the record, and the immediate sign-extended. -/
def Obligations.MovImmediate8Result : Prop :=
  (∀ (b0 b1 : Byte) (rest : List Byte), bytePair b0 b1 &&& 0xF800#16 = 0xB000#16 →
    decode (b0 :: b1 :: rest) = .ok (.movIR8 (b0.extractLsb' 0 3) b1, rest)) ∧
  (∀ (reg : BitVec 3) (data : Byte) (s : State), 2 ≤ s.avail →
    exec (.movIR8 reg data) s = .next (emitted s (.reg (regOf reg 0#1)) (.imm (sext16 data)) 2)) ∧
  (∀ reg : BitVec 3, some (regOf reg 0#1) = [Reg.al, .cl, .dl, .bl, .ah, .ch, .dh, .bh][reg.toNat]?) ∧
  ∀ b : Byte, (sext16 b).toInt = if b.toNat ≤ 0x7F then (b.toNat : Int) else (b.toNat : Int) - 256

/-- R151, immediate to a 16-bit register, low byte first: the encoding, the record, the immediate's value, and
TruncatedStream when exactly two bytes remain. -/
def Obligations.MovImmediate16Result : Prop :=
  (∀ (b0 b1 b2 : Byte) (rest : List Byte), bytePair b0 b1 &&& 0xF800#16 = 0xB800#16 →
    decode (b0 :: b1 :: b2 :: rest) = .ok (.movIR16 (b0.extractLsb' 0 3) (b2 ++ b1), rest)) ∧
  (∀ (reg : BitVec 3) (data : Word) (s : State), 3 ≤ s.avail →
    exec (.movIR16 reg data) s = .next (emitted s (.reg (regOf reg 1#1)) (.imm (signed16 data)) 3)) ∧
  (∀ reg : BitVec 3, some (regOf reg 1#1) = [Reg.ax, .cx, .dx, .bx, .sp, .bp, .si, .di][reg.toNat]?) ∧
  (∀ u : Word, (signed16 u).toInt = if u.toNat < 0x8000 then (u.toNat : Int) else (u.toNat : Int) - 0x10000) ∧
  ∀ s : State, s.enabled → s.avail = 2 → windowAt s s.cursor &&& 0xF800#16 = 0xB800#16 →
    step s = .next (failedWith s .truncatedStream (some (windowAt s s.cursor)))

/-- Derived (R160; the opcode is general knowledge, log entry 6; byte 1 untested, 92_eei_decisions.md D3): the class
fails NotImplemented whatever byte 1 holds and however few bytes follow. -/
def Obligations.MovImmediateToMemoryFails : Prop :=
  (∀ (w : BitVec 1) (byte1 : Byte) (s : State),
    exec (.movIRM w byte1) s = .next (failedWith s .notImplemented (some (0b1100011#7 ++ w ++ byte1)))) ∧
  ∀ s : State, s.enabled → 2 ≤ s.avail → windowAt s s.cursor &&& 0xFE00#16 = 0xC600#16 →
    step s = .next (failedWith s .notImplemented (some (windowAt s s.cursor)))

/-- Derived (R153): every ImmediateToReg instruction that fits in the stream is emitted, into the register its byte 0
names in REGTAB's order. -/
def Obligations.ImmediateClassCovered : Prop :=
  ∀ (s : State) (k : Nat) (hk : k < 16), s.enabled → (streamAt s s.cursor).toNat = 0xB0 + k →
    (if k < 8 then 2 else 3) ≤ s.avail →
    ∃ v, step s = .next (emitted s
      (.reg ([Reg.al, .cl, .dl, .bl, .ah, .ch, .dh, .bh, .ax, .cx, .dx, .bx, .sp, .bp, .si, .di][k])) (.imm v)
      (if k < 8 then 2 else 3))

/-- R137: what a RegMemToFromReg instruction consumes, by `mod`; with mod = 00 the direct form excluded. -/
def Obligations.LengthByMod : Prop :=
  ∀ s : State, s.enabled → 2 ≤ s.avail → windowAt s s.cursor &&& 0xFC00#16 = 0x8800#16 →
    (rmMod (windowAt s s.cursor) = 1#2 → 3 ≤ s.avail → ∃ dst src, step s = .next (emitted s dst src 3)) ∧
    (rmMod (windowAt s s.cursor) = 2#2 → 4 ≤ s.avail → ∃ dst src, step s = .next (emitted s dst src 4)) ∧
    (rmMod (windowAt s s.cursor) = 3#2 → ∃ dst src, step s = .next (emitted s dst src 2)) ∧
    (rmMod (windowAt s s.cursor) = 0#2 → rmRm (windowAt s s.cursor) ≠ 6#3 → ∃ dst src, step s = .next (emitted s dst src 2))

/-- Derived (R136): the register-mode round trip given `d`, over every register-mode window; and each such record
comes from exactly one window for each value of `d`. -/
def Obligations.RegisterModeRoundTrip : Prop :=
  (∀ s : State, s.enabled → 2 ≤ s.avail → windowAt s s.cursor &&& 0xFCC0#16 = 0x88C0#16 →
    ∃ dst src : Reg, step s = .next (emitted s (.reg dst) (.reg src) 2) ∧
      encodeRR (rmD (windowAt s s.cursor)) dst src = (streamAt s s.cursor, streamAt s (s.cursor + 1))) ∧
  ∀ (d w : BitVec 1) (reg rm : BitVec 3) (d' : BitVec 1),
    ∃ (reg' rm' : BitVec 3), ∀ (w'' : BitVec 1) (reg'' rm'' : BitVec 3),
      order d' (.reg (regOf reg'' w'')) (.reg (regOf rm'' w'')) = order d (.reg (regOf reg w)) (.reg (regOf rm w)) ↔
        w'' = w ∧ reg'' = reg' ∧ rm'' = rm'

/-- Derived (R176, R177, R51): the frame of every instruction (movRR, movM0a, movM0b, movM0c, movDirect, movM8,
movM16, movIR8, movIR16, movIRM), each a form that stores nothing: every byte of the stream reads as before, `N` and
the reset input stay; a record leaves `err`, a failure leaves the cursor and the log. -/
def Obligations.InstructionFrame : Prop :=
  ∀ (i : Instr) (s t : State), exec i s = .next t →
    (∀ a : Nat, memRead t a = memRead s a) ∧ t.streamLen = s.streamLen ∧ t.resetLine = s.resetLine ∧
    (t.status ≠ .failed → t.err = s.err) ∧ (t.status = .failed → t.cursor = s.cursor ∧ t.outLog = s.outLog)

/-! ### The step -/

/-- Derived (R175, R178): when the bytes at the cursor decode to an instruction, an enabled step is `exec` of it;
nothing is added around it: the instruction moves the cursor itself. -/
def Obligations.StepRunsDecodedInstruction : Prop :=
  ∀ (s : State) (i : Instr) (rest : List Byte), s.enabled → decode s.remaining = .ok (i, rest) → step s = exec i s

/-- Derived (R178 with the class decodes R135 and R152; the checks' order and payload are 92_eei_decisions.md D4 to
D6, log entries 6 and 10): the machine, which decodes to an Instr and runs it, is the spec's pseudocode, which decodes
the window and the stream directly. -/
def Obligations.StepIsSpecStep : Prop :=
  ∀ s : State, s.enabled → step s = .next (refStep s)

/-- R176: a step that does not fail emits one record, advances by its length and sets the status; `err` and everything
else is not written. The record is the class decode's, of 2 to 4 bytes, and it fits in the stream. -/
def Obligations.EmitAndAdvance : Prop :=
  ∀ s t : State, s.enabled → step s = .next t → t.status ≠ .failed →
    ∃ rec : Record, decodeAt s s.cursor = .ok rec ∧ rec.mnemonic = .mov ∧ 2 ≤ rec.len ∧ rec.len ≤ 4 ∧
      s.cursor + rec.len ≤ s.streamLen ∧
      t = { s with
        outLog := s.outLog ++ [rec], cursor := s.cursor + rec.len,
        status := if s.cursor + rec.len = s.streamLen then .done else .scanning }

/-- Derived (R177; the terminal status is 92_eei_decisions.md D7, log entry 14): a step that fails writes `err` with
the offset of the instruction and the status, and nothing else. -/
def Obligations.FailingStepWritesErrOnly : Prop :=
  ∀ s t : State, s.enabled → step s = .next t → t.status = .failed →
    ∃ e : ErrRec, decodeAt s s.cursor = .error e ∧ e.offset = s.cursor ∧ t.cursor = e.offset ∧ t.outLog = s.outLog ∧
      t = { s with err := some e, status := .failed }

/-- Derived (R201; the code is 92_eei_decisions.md D15, the class of 0xC6 and 0xC7 is D2, log entry 6): a window of no
class fails UnsupportedOpcode with code 1 and carries the window; "no entry matches" is the same as byte 0 outside the
three sets. -/
def Obligations.UnsupportedOpcodeFails : Prop :=
  (∀ s : State, s.enabled → 2 ≤ s.avail → (∀ c ∈ classTab, classMatches (windowAt s s.cursor) c = false) →
    step s = .next (failedWith s .unsupportedOpcode (some (windowAt s s.cursor)))) ∧
  (∀ b0 b1 : Byte, (∀ c ∈ classTab, classMatches (bytePair b0 b1) c = false) ↔
    ¬ (0x88 ≤ b0.toNat ∧ b0.toNat ≤ 0x8B) ∧ ¬ (0xB0 ≤ b0.toNat ∧ b0.toNat ≤ 0xBF) ∧ b0.toNat ≠ 0xC6 ∧ b0.toNat ≠ 0xC7) ∧
  ∀ (s : State) (window : Option Word), regErrKind (failedWith s .unsupportedOpcode window) = 1#2

/-- Derived (R202): the two causes of NotImplemented, code 2. -/
def Obligations.NotImplementedCauses : Prop :=
  (∀ s : State, s.enabled → 2 ≤ s.avail →
    (dispatch (windowAt s s.cursor) = some .immediateToRegMem ∨
      (dispatch (windowAt s s.cursor) = some .regMemToFromReg ∧ rmMod (windowAt s s.cursor) = 0#2 ∧
        rmRm (windowAt s s.cursor) = 6#3)) →
    step s = .next (failedWith s .notImplemented (some (windowAt s s.cursor)))) ∧
  ∀ (s : State) (window : Option Word), regErrKind (failedWith s .notImplemented window) = 2#2

/-- Derived (R203; the payload is 92_eei_decisions.md D6): the two causes of TruncatedStream, code 3. -/
def Obligations.TruncatedStreamCauses : Prop :=
  (∀ s : State, s.enabled → s.avail = 1 → step s = .next (failedWith s .truncatedStream none)) ∧
  (∀ (s : State) (n : Nat), s.enabled → 2 ≤ s.avail → noDecode (windowAt s s.cursor) = false →
    lengthOf (windowAt s s.cursor) = some n → s.avail < n →
    step s = .next (failedWith s .truncatedStream (some (windowAt s s.cursor)))) ∧
  ∀ (s : State) (window : Option Word), regErrKind (failedWith s .truncatedStream window) = 3#2

/-- Derived (R210; the order is 92_eei_decisions.md D5): the first condition that holds decides the failure, and with
none of them the step emits a record of the window's length. -/
def Obligations.FailurePrecedence : Prop :=
  ∀ s : State, s.enabled →
    if s.avail < 2 then step s = .next (failedWith s .truncatedStream none)
    else if dispatch (windowAt s s.cursor) = none then
      step s = .next (failedWith s .unsupportedOpcode (some (windowAt s s.cursor)))
    else if noDecode (windowAt s s.cursor) = true then
      step s = .next (failedWith s .notImplemented (some (windowAt s s.cursor)))
    else ∃ n, lengthOf (windowAt s s.cursor) = some n ∧
      if s.avail < n then step s = .next (failedWith s .truncatedStream (some (windowAt s s.cursor)))
      else ∃ dst src, step s = .next (emitted s dst src n)

/-- Derived (R80, R5): a step fails in exactly the listed cases; so no byte pattern outside the subset yields a
record. -/
def Obligations.FailsExactlyOutsideSubset : Prop :=
  ∀ s t : State, s.enabled → step s = .next t →
    (t.status = .failed ↔
      s.avail < 2 ∨
      (windowAt s s.cursor &&& 0xFC00#16 ≠ 0x8800#16 ∧ windowAt s s.cursor &&& 0xFE00#16 ≠ 0xC600#16 ∧
        windowAt s s.cursor &&& 0xF000#16 ≠ 0xB000#16) ∨
      windowAt s s.cursor &&& 0xFE00#16 = 0xC600#16 ∨
      windowAt s s.cursor &&& 0xFCC7#16 = 0x8806#16 ∨
      (windowAt s s.cursor &&& 0xFCC0#16 = 0x8840#16 ∧ s.avail < 3) ∨
      (windowAt s s.cursor &&& 0xFCC0#16 = 0x8880#16 ∧ s.avail < 4) ∨
      (windowAt s s.cursor &&& 0xF800#16 = 0xB800#16 ∧ s.avail < 3))

/-- Derived (R53; that a read at or past `N` is a fault is the model's choice, log entries 1 and 13): no step reads
outside the stream. A read at or past `N` faults in the model, a step with too few bytes left for its window or its
instruction fails TruncatedStream, and no step, from any state, answers a fault or a refusal. -/
def Obligations.NoReadOutsideStream : Prop :=
  (∀ (s : State) (a : Nat), s.streamLen ≤ a → memRead s a = .error (.readOutsideStream a)) ∧
  (∀ s : State, s.enabled →
    (s.avail < 2 ∨ (noDecode (windowAt s s.cursor) = false ∧
      ∃ n, lengthOf (windowAt s s.cursor) = some n ∧ s.avail < n)) →
    ∃ window, step s = .next (failedWith s .truncatedStream window)) ∧
  ∀ s : State, ∃ t, step s = .next t

/-- R51: the block never writes the input stream: every byte reads as before, in any state, however many steps. -/
def Obligations.StreamNeverWritten : Prop :=
  ∀ (k : Nat) (s t : State), runSteps k s = .next t →
    t.stream = s.stream ∧ t.streamLen = s.streamLen ∧ ∀ a : Nat, memRead t a = memRead s a

/-- Derived (R85, R54): the decode depends only on the instruction's own bytes. Two enabled blocks, whatever their
cursors, logs and streams, that agree on the next four bytes (or on all, where fewer remain) do the same; and where
one emits a record of `n` bytes, agreeing on those `n` bytes is enough. -/
def Obligations.DecodeDependsOnOwnBytes : Prop :=
  (∀ s s' : State, s.enabled → s'.enabled → s.remaining.take 4 = s'.remaining.take 4 →
    (∃ dst src n, step s = .next (emitted s dst src n) ∧ step s' = .next (emitted s' dst src n)) ∨
    (∃ kind window, step s = .next (failedWith s kind window) ∧ step s' = .next (failedWith s' kind window))) ∧
  ∀ (s s' : State) (dst src : Operand) (n : Nat), s.enabled → s'.enabled → step s = .next (emitted s dst src n) →
    s'.remaining.take n = s.remaining.take n → step s' = .next (emitted s' dst src n)

/-- Derived (R170, R206, R217, R231; log entry 3): in Done and Failed no step is enabled and all state survives a step
and every host move but asserting reset: only reset leaves them. -/
def Obligations.TerminalStatesAreQuiescent : Prop :=
  ∀ s : State, s.resetLine = false → (s.status = .done ∨ s.status = .failed) →
    step s = .next s ∧
    ∀ (cw : Nat) (m : HostMove) (t : State), m ≠ .assertReset → hostMove cw m s = some t → t = s

/-! ### Reset and the host -/

/-- Derived (R230, R34; 92_eei_decisions.md D9, D17, log entry 4): while reset is asserted, in any state, the step
holds the reset values and keeps the stream, `N` and the input; asserting reset gives them at once. -/
def Obligations.ResetHoldsResetValues : Prop :=
  (∀ s : State, s.resetLine = true →
    step s = .next { s with
      cursor := 0, status := if s.streamLen = 0 then .done else .scanning, err := none, outLog := [] }) ∧
  ∀ (cw : Nat) (s : State), hostMove cw .assertReset s = some { s with
    cursor := 0, status := if s.streamLen = 0 then .done else .scanning, err := none, outLog := [], resetLine := true }

/-- Derived (R34, R233; D9, log entry 2): what reset leaves over a loaded stream, and that the stream is the bytes
loaded. -/
def Obligations.LoadedStreamReadsAsBytes : Prop :=
  ∀ bytes : List Byte,
    (resetState bytes).cursor = 0 ∧ (resetState bytes).err = none ∧ (resetState bytes).outLog = [] ∧
    (resetState bytes).streamLen = bytes.length ∧
    (resetState bytes).status = (if bytes.length = 0 then .done else .scanning) ∧
    (∀ (k : Nat) (hk : k < bytes.length), memRead (resetState bytes) k = .ok bytes[k]) ∧
    (resetState bytes).remaining = bytes

/-- Derived (R240, R233, R32; 92_eei_decisions.md D12, log entry 11): no host move writes the stream or `N` outside
reset, and a load in reset is refused only when `N` exceeds `2^CURSOR_W - 1`. -/
def Obligations.HostWritesOnlyInReset : Prop :=
  (∀ (cw : Nat) (m : HostMove) (s t : State), s.resetLine = false → hostMove cw m s = some t →
    t.stream = s.stream ∧ t.streamLen = s.streamLen) ∧
  (∀ (cw : Nat) (bytes : List Byte) (s : State), s.resetLine = false → hostMove cw (.load bytes) s = none) ∧
  ∀ (cw : Nat) (bytes : List Byte) (s : State), s.resetLine = true →
    (hostMove cw (.load bytes) s ≠ none ↔ bytes.length ≤ 2 ^ cw - 1)

/-- Derived (R230, R233, R231; 92_eei_decisions.md D9, D10, D12, D17, log entries 4 and 11): what a load and
deasserting reset answer; and from any state, asserting reset, loading bytes that `CURSOR_W` can count and deasserting
reset give the state that the statements about streams start from. -/
def Obligations.HostStartsRun : Prop :=
  (∀ (cw : Nat) (s : State), hostMove cw .deassertReset s = some { s with resetLine := false }) ∧
  (∀ (cw : Nat) (bytes : List Byte) (s : State), s.resetLine = true → bytes.length ≤ 2 ^ cw - 1 →
    ∃ t, hostMove cw (.load bytes) s = some t ∧ t.resetLine = true ∧ t.streamLen = bytes.length ∧
      (∀ (k : Nat) (hk : k < bytes.length), memRead t k = .ok bytes[k]) ∧
      t.cursor = 0 ∧ t.status = (if bytes.length = 0 then .done else .scanning) ∧ t.err = none ∧ t.outLog = []) ∧
  ∀ (cw : Nat) (bytes : List Byte) (s : State), bytes.length ≤ 2 ^ cw - 1 →
    ∃ t u, hostMove cw .assertReset s = some t ∧ hostMove cw (.load bytes) t = some u ∧
      hostMove cw .deassertReset u = some (resetState bytes)

/-- Derived (R32; the codes are the spec's own, 92_eei_decisions.md D15): the host's registers. Nothing is said of
ERR_WINDOW for a failure without a window, a free value (log entry 16). -/
def Obligations.HostRegisterMap : Prop :=
  ∀ (cw : Nat) (s : State),
    regStatus s = (match s.status with | .scanning => 0#2 | .done => 1#2 | .failed => 2#2) ∧ regStatus s ≠ 3#2 ∧
    (s.err = none → regErr s = 0#3 ∧ regErrOffset cw s = 0#cw ∧ regErrWindow s = 0#16) ∧
    ∀ (kind : ErrKind) (offset : Nat) (window : Option Word), s.err = some ⟨kind, offset, window⟩ →
      (regErr s).extractLsb' 0 2 =
        (match kind with | .unsupportedOpcode => 1#2 | .notImplemented => 2#2 | .truncatedStream => 3#2) ∧
      (regErr s).extractLsb' 2 1 = (if window = none then 0#1 else 1#1) ∧
      ∀ w : Word, window = some w → regErrWindow s = w

/-- Derived (R25, R8): in every reachable state the `CURSOR_W`-bit registers hold the cursor, `N` and the failing
offset exactly: the cursor never wraps. -/
def Obligations.CursorNeverWraps : Prop :=
  ∀ (cw : Nat) (s : State), Reachable cw s →
    (regCursor cw s).toNat = s.cursor ∧ (regLen cw s).toNat = s.streamLen ∧
    (regErrOffset cw s).toNat = (match s.err with | none => 0 | some e => e.offset)

/-! ### The stream's storage -/

/-- The model's cell list (log entry 1) is canonical: two lists in canonical form that read the same bytes are the
same list. -/
def Obligations.CellListCanonical : Prop :=
  ∀ (m m' : Memory) (n : Nat), m.wf n → m'.wf n → (∀ a : Nat, a < n → m.read a = m'.read a) → m = m'

/-- The model's own placing of an opcode-table word (log entries 2 and 7): the next step runs the instruction the
decoder reads from it. -/
def Obligations.PlacedWordRunsNext : Prop :=
  ∀ (s : State) (nbits w : Nat) (i : Instr), s.stream.wf s.streamLen → decodeTableWord nbits w = some i →
    step (s.withFetchWord nbits w) = exec i (s.withFetchWord nbits w)

/-! ### Invariants and runs -/

/-- Derived (R35 and R14, R26, R109, R230): the invariant holds right after reset, over every loaded stream. -/
def Obligations.InvAtReset : Prop :=
  State.reset.Inv ∧ ∀ bytes : List Byte, (resetState bytes).Inv

/-- Derived (R35): every step keeps the invariant: the cursor stays inside the stream and is the log's length, Done
only at the end, Failed only inside with the failure at the cursor, every record well formed, the stream canonical. -/
def Obligations.InvKeptByStep : Prop :=
  ∀ s t : State, s.Inv → step s = .next t → t.Inv

/-- Derived (R35, R231, R233): every host move keeps the invariant. -/
def Obligations.InvKeptByHost : Prop :=
  ∀ (cw : Nat) (m : HostMove) (s t : State), s.Inv → hostMove cw m s = some t → t.Inv

/-- Derived (R35): every state that steps and host moves reach satisfies the invariant. -/
def Obligations.InvOfReachable : Prop :=
  ∀ (cw : Nat) (s : State), Reachable cw s → s.Inv

/-- Derived (R35 item 6, R28, R183): within a run the log only grows at its end and the cursor never moves back. -/
def Obligations.LogOnlyGrows : Prop :=
  ∀ (k : Nat) (s t : State), s.resetLine = false → runSteps k s = .next t →
    s.outLog <+: t.outLog ∧ s.cursor ≤ t.cursor

/-- Derived (R63, R205): every step keeps the log equal to the decode of the stream before the cursor, and a failure
equal to the one the spec gives at the cursor, whether the step runs, rests or is held in reset. -/
def Obligations.LogIsDecodeKeptByStep : Prop :=
  ∀ s t : State, s.Precise → step s = .next t → t.Precise

/-- Derived (R63, R34): the same holds right after reset, over every loaded stream. -/
def Obligations.LogIsDecodeAtReset : Prop :=
  State.reset.Precise ∧ ∀ bytes : List Byte, (resetState bytes).Precise

/-- Derived (R179, R204; a step in Done and Failed is log entry 3): every run from reset, over every stream, reaches
Done at `N` or Failed with an error inside the stream in at most `ceil(N / 2)` steps. -/
def Obligations.RunTerminates : Prop :=
  ∀ bytes : List Byte, ∃ t, runSteps ((bytes.length + 1) / 2) (resetState bytes) = .next t ∧
    ((t.status = .done ∧ t.cursor = bytes.length ∧ t.err = none) ∨
     (t.status = .failed ∧ t.cursor < bytes.length ∧ ∃ e, t.err = some e ∧ e.offset = t.cursor))

/-- Derived (R181, R204, R63; 92_eei_decisions.md D8; a step in Done and Failed is log entry 3): `decode(bytes)` is
defined for every byte sequence. It is a log only when the log decodes the whole sequence, record by record; and it is
an error only when some log decodes the bytes before the error's offset and the spec gives that error there. -/
def Obligations.FunctionalResultIsDecode : Prop :=
  ∀ bytes : List Byte, ∃ r, decodeStream bytes = some r ∧
    match r with
    | .ok log => logDecodes (resetState bytes) 0 log bytes.length
    | .error e => ∃ log, logDecodes (resetState bytes) 0 log e.offset ∧ decodeAt (resetState bytes) e.offset = .error e

/-- Derived (R182): the empty stream is Done at reset, with no records; `decode([])` is `ok []`. -/
def Obligations.EmptyStreamIsDone : Prop :=
  (resetState []).status = .done ∧ (resetState []).outLog = [] ∧ decodeStream [] = some (.ok [])
end

