-- ==== Sys2Proof/Laws/Decode.lean ====
section
/-! SUPPORT. The decoder of each format, form by form (30_encoding.md R79). -/

namespace Sys2Proof

variable {W : Word} {rest : List Byte} {b2 b3 : Byte}

theorem decodeRegMem_rr (h : rmMod W = 3#2) :
    decodeRegMem W rest = .ok (.movRR (rmD W) (rmW W) (rmReg W) (rmRm W), rest) := by
  simp only [decodeRegMem, if_pos h]

theorem decodeRegMem_noDisp (h : rmMod W = 0#2) :
    decodeRegMem W rest =
      .ok (if rmRm W = 6#3 then .movDirect (rmD W) (rmW W) (rmReg W)
        else if rmRm W = 7#3 then .movM0c (rmD W) (rmW W) (rmReg W)
        else if (rmRm W).toNat ≤ 3 then .movM0a (rmD W) (rmW W) (rmReg W) (rmRm W)
        else .movM0b (rmD W) (rmW W) (rmReg W) (rmRm W), rest) := by
  have h3 : ¬ rmMod W = 3#2 := by rw [h]; decide
  simp only [decodeRegMem, if_neg h3, if_pos h]
  repeat' split
  all_goals rfl

theorem decodeRegMem_m8 (h : rmMod W = 1#2) :
    decodeRegMem W (b2 :: rest) = .ok (.movM8 (rmD W) (rmW W) (rmReg W) (rmRm W) b2, rest) := by
  have h3 : ¬ rmMod W = 3#2 := by rw [h]; decide
  have h0 : ¬ rmMod W = 0#2 := by rw [h]; decide
  simp only [decodeRegMem, if_neg h3, if_neg h0, if_pos h]

theorem decodeRegMem_m8_short (h : rmMod W = 1#2) : decodeRegMem W [] = .error (.truncated W) := by
  have h3 : ¬ rmMod W = 3#2 := by rw [h]; decide
  have h0 : ¬ rmMod W = 0#2 := by rw [h]; decide
  simp only [decodeRegMem, if_neg h3, if_neg h0, if_pos h]

theorem decodeRegMem_m16 (h : rmMod W = 2#2) :
    decodeRegMem W (b2 :: b3 :: rest) =
      .ok (.movM16 (rmD W) (rmW W) (rmReg W) (rmRm W) (bytePair b3 b2), rest) := by
  have h3 : ¬ rmMod W = 3#2 := by rw [h]; decide
  have h0 : ¬ rmMod W = 0#2 := by rw [h]; decide
  have h1 : ¬ rmMod W = 1#2 := by rw [h]; decide
  simp only [decodeRegMem, if_neg h3, if_neg h0, if_neg h1]

theorem decodeRegMem_m16_short (h : rmMod W = 2#2) (hr : rest.length < 2) :
    decodeRegMem W rest = .error (.truncated W) := by
  have h3 : ¬ rmMod W = 3#2 := by rw [h]; decide
  have h0 : ¬ rmMod W = 0#2 := by rw [h]; decide
  have h1 : ¬ rmMod W = 1#2 := by rw [h]; decide
  simp only [decodeRegMem, if_neg h3, if_neg h0, if_neg h1]
  match rest, hr with
  | [], _ => rfl
  | [_], _ => rfl

theorem decodeImmReg_ir8 (h : irW W = 0#1) : decodeImmReg W rest = .ok (.movIR8 (irReg W) (irData W), rest) := by
  simp only [decodeImmReg, if_pos h]

theorem decodeImmReg_ir16 (h : irW W = 1#1) :
    decodeImmReg W (b2 :: rest) = .ok (.movIR16 (irReg W) (bytePair b2 (irData W)), rest) := by
  have h0 : ¬ irW W = 0#1 := by rw [h]; decide
  simp only [decodeImmReg, if_neg h0]

theorem decodeImmReg_ir16_short (h : irW W = 1#1) : decodeImmReg W [] = .error (.truncated W) := by
  have h0 : ¬ irW W = 0#1 := by rw [h]; decide
  simp only [decodeImmReg, if_neg h0]

/-! The decoder by class of the window. -/

variable {b0 b1 : Byte}

theorem decode_regMem (h : dispatch (bytePair b0 b1) = some .regMemToFromReg) :
    decode (b0 :: b1 :: rest) = decodeRegMem (bytePair b0 b1) rest := by simp only [decode, h]
theorem decode_immReg (h : dispatch (bytePair b0 b1) = some .immediateToReg) :
    decode (b0 :: b1 :: rest) = decodeImmReg (bytePair b0 b1) rest := by simp only [decode, h]
theorem decode_immRegMem (h : dispatch (bytePair b0 b1) = some .immediateToRegMem) :
    decode (b0 :: b1 :: rest) =
      .ok (.movIRM (irmW (bytePair b0 b1)) (windowByte1 (bytePair b0 b1)), rest) := by simp only [decode, h]
theorem decode_noClass (h : dispatch (bytePair b0 b1) = none) :
    decode (b0 :: b1 :: rest) = .error (.unsupported (bytePair b0 b1)) := by simp only [decode, h]

end Sys2Proof
end

