-- ==== Sys2Proof/Laws/Window.lean ====
section
/-! SUPPORT. The window as a number: what each field, each matcher and each encoder is in arithmetic, so that facts about
encodings are closed by omega. -/

namespace Sys2Proof

/-- A field as a number. -/
theorem fieldAt_toNat (W : Word) (start width : Nat) :
    (fieldAt W start width).toNat = W.toNat / 2 ^ start % 2 ^ width := by
  simp [fieldAt, extractField, Nat.one_shiftLeft, Nat.and_two_pow_sub_one_eq_mod, Nat.shiftRight_eq_div_pow]

theorem rmD_toNat (W : Word) : (rmD W).toNat = W.toNat / 512 % 2 := fieldAt_toNat W 9 1
theorem rmW_toNat (W : Word) : (rmW W).toNat = W.toNat / 256 % 2 := fieldAt_toNat W 8 1
theorem rmMod_toNat (W : Word) : (rmMod W).toNat = W.toNat / 64 % 4 := fieldAt_toNat W 6 2
theorem rmReg_toNat (W : Word) : (rmReg W).toNat = W.toNat / 8 % 8 := fieldAt_toNat W 3 3
theorem rmRm_toNat (W : Word) : (rmRm W).toNat = W.toNat % 8 := by
  simpa [rmRm] using fieldAt_toNat W 0 3
theorem irW_toNat (W : Word) : (irW W).toNat = W.toNat / 2048 % 2 := fieldAt_toNat W 11 1
theorem irReg_toNat (W : Word) : (irReg W).toNat = W.toNat / 256 % 8 := fieldAt_toNat W 8 3
theorem irData_toNat (W : Word) : (irData W).toNat = W.toNat % 256 := by
  simpa [irData] using fieldAt_toNat W 0 8
theorem irmW_toNat (W : Word) : (irmW W).toNat = W.toNat / 256 % 2 := fieldAt_toNat W 8 1
theorem windowByte1_toNat (W : Word) : (windowByte1 W).toNat = W.toNat % 256 := by
  simpa [windowByte1] using fieldAt_toNat W 0 8
theorem windowByte0_toNat (W : Word) : (windowByte0 W).toNat = W.toNat / 256 % 256 := fieldAt_toNat W 8 8

/-- Two bit patterns side by side, as a number. -/
theorem append_toNat {m n : Nat} (x : BitVec m) (y : BitVec n) :
    (x ++ y).toNat = x.toNat * 2 ^ n + y.toNat := by
  rw [BitVec.toNat_append, ← Nat.shiftLeft_add_eq_or_of_lt y.isLt, Nat.shiftLeft_eq]

@[simp] theorem bytePair_toNat (hi lo : Byte) : (bytePair hi lo).toNat = hi.toNat * 256 + lo.toNat :=
  append_toNat hi lo

@[simp] theorem lowByte_toNat (v : Word) : (lowByte v).toNat = v.toNat % 256 := by
  simp [lowByte]
@[simp] theorem highByte_toNat (v : Word) : (highByte v).toNat = v.toNat / 256 := by
  have := v.isLt
  simp only [highByte, BitVec.extractLsb'_toNat, Nat.shiftRight_eq_div_pow]; omega

@[simp] theorem bytePair_high_low (v : Word) : bytePair (highByte v) (lowByte v) = v := by
  apply BitVec.eq_of_toNat_eq; simp; omega
@[simp] theorem highByte_bytePair (hi lo : Byte) : highByte (bytePair hi lo) = hi := by
  apply BitVec.eq_of_toNat_eq; simp; omega
@[simp] theorem lowByte_bytePair (hi lo : Byte) : lowByte (bytePair hi lo) = lo := by
  apply BitVec.eq_of_toNat_eq; simp; omega

@[simp] theorem rmWindow_toNat (d w : BitVec 1) (mod : BitVec 2) (reg rm : BitVec 3) :
    (rmWindow d w mod reg rm).toNat =
      34 * 1024 + d.toNat * 512 + w.toNat * 256 + mod.toNat * 64 + reg.toNat * 8 + rm.toNat := by
  simp only [rmWindow, append_toNat, BitVec.toNat_ofNat]; omega
@[simp] theorem irWindow_toNat (w : BitVec 1) (reg : BitVec 3) (data : Byte) :
    (irWindow w reg data).toNat = 11 * 4096 + w.toNat * 2048 + reg.toNat * 256 + data.toNat := by
  simp only [irWindow, append_toNat, BitVec.toNat_ofNat]; omega
@[simp] theorem irmWindow_toNat (w : BitVec 1) (byte1 : Byte) :
    (irmWindow w byte1).toNat = 99 * 512 + w.toNat * 256 + byte1.toNat := by
  simp only [irmWindow, append_toNat, BitVec.toNat_ofNat]; omega

/-- Masking a run of bits keeps that field in place. -/
theorem and_mask (n j k : Nat) : n &&& ((2 ^ j - 1) * 2 ^ k) = n / 2 ^ k % 2 ^ j * 2 ^ k := by
  apply Nat.eq_of_testBit_eq
  intro i
  simp only [Nat.testBit_and, Nat.testBit_mul_two_pow, Nat.testBit_mod_two_pow, Nat.testBit_div_two_pow,
    Nat.testBit_two_pow_sub_one]
  by_cases h : k ≤ i
  · simp [h, Bool.and_comm]
  · simp [h]

/-- A window with its top bits tested: the test in arithmetic. -/
theorem and_mask_beq (W : Word) (j k p : Nat) (hjk : j + k = 16) (hp : p < 2 ^ j) :
    ((W &&& BitVec.ofNat 16 ((2 ^ j - 1) * 2 ^ k)) == BitVec.ofNat 16 (p * 2 ^ k)) = decide (W.toNat / 2 ^ k = p) := by
  have hpow : 2 ^ j * 2 ^ k = 65536 := by rw [← Nat.pow_add, hjk]
  have hk : 0 < 2 ^ k := Nat.two_pow_pos k
  have hW : W.toNat / 2 ^ k < 2 ^ j := by
    rw [Nat.div_lt_iff_lt_mul hk, hpow]; exact W.isLt
  have hmask : (2 ^ j - 1) * 2 ^ k < 65536 := by
    rw [← hpow]; exact Nat.mul_lt_mul_of_pos_right (by omega) hk
  have hpat : p * 2 ^ k < 65536 := by
    rw [← hpow]; exact Nat.mul_lt_mul_of_pos_right hp hk
  rw [Bool.eq_iff_iff, beq_iff_eq, decide_eq_true_iff, ← BitVec.toNat_inj, BitVec.toNat_and, BitVec.toNat_ofNat,
    BitVec.toNat_ofNat, Nat.mod_eq_of_lt hmask, Nat.mod_eq_of_lt hpat, and_mask, Nat.mod_eq_of_lt hW]
  exact ⟨fun h => Nat.eq_of_mul_eq_mul_right hk h, fun h => by rw [h]⟩

theorem match_regMem (W : Word) :
    classMatches W ⟨.regMemToFromReg, 0xFC00#16, 0x8800#16⟩ = decide (W.toNat / 1024 = 34) :=
  and_mask_beq W 6 10 34 rfl (by decide)
theorem match_immRegMem (W : Word) :
    classMatches W ⟨.immediateToRegMem, 0xFE00#16, 0xC600#16⟩ = decide (W.toNat / 512 = 99) :=
  and_mask_beq W 7 9 99 rfl (by decide)
theorem match_immReg (W : Word) :
    classMatches W ⟨.immediateToReg, 0xF000#16, 0xB000#16⟩ = decide (W.toNat / 4096 = 11) :=
  and_mask_beq W 4 12 11 rfl (by decide)

/-- `dispatch` in arithmetic. -/
theorem dispatch_eq (W : Word) :
    dispatch W =
      if W.toNat / 1024 = 34 then some .regMemToFromReg
      else if W.toNat / 512 = 99 then some .immediateToRegMem
      else if W.toNat / 4096 = 11 then some .immediateToReg
      else none := by
  simp only [dispatch, dispatchIn, classTab, List.find?, match_regMem, match_immRegMem, match_immReg]
  split <;> rename_i h₁ <;> simp only [decide_eq_true_eq, decide_eq_false_iff_not] at h₁
  · simp [h₁]
  · split <;> rename_i h₂ <;> simp only [decide_eq_true_eq, decide_eq_false_iff_not] at h₂
    · simp [h₁, h₂]
    · split <;> rename_i h₃ <;> simp only [decide_eq_true_eq, decide_eq_false_iff_not] at h₃ <;> simp [h₁, h₂, h₃]

/-- What each class says of the window's number. -/
theorem dispatch_regMem {W : Word} : dispatch W = some .regMemToFromReg ↔ W.toNat / 1024 = 34 := by
  rw [dispatch_eq]; repeat' split
  all_goals simp; try omega
theorem dispatch_immRegMem {W : Word} : dispatch W = some .immediateToRegMem ↔ W.toNat / 512 = 99 := by
  rw [dispatch_eq]; repeat' split
  all_goals simp; try omega
theorem dispatch_immReg {W : Word} : dispatch W = some .immediateToReg ↔ W.toNat / 4096 = 11 := by
  rw [dispatch_eq]; repeat' split
  all_goals simp; try omega

end Sys2Proof
end

