-- ==== Sys2Proof/Laws/Length.lean ====
section
/-! SUPPORT. The length of a window's instruction, class by class. -/

namespace Sys2Proof

/-- The four values of `mod`. -/
theorem mod_cases (mod : BitVec 2) : mod = 0#2 ∨ mod = 1#2 ∨ mod = 2#2 ∨ mod = 3#2 := by
  have := mod.isLt
  rcases (by omega : mod.toNat = 0 ∨ mod.toNat = 1 ∨ mod.toNat = 2 ∨ mod.toNat = 3) with h | h | h | h
  · exact .inl (BitVec.eq_of_toNat_eq h)
  · exact .inr (.inl (BitVec.eq_of_toNat_eq h))
  · exact .inr (.inr (.inl (BitVec.eq_of_toNat_eq h)))
  · exact .inr (.inr (.inr (BitVec.eq_of_toNat_eq h)))

/-- The two values of a bit. -/
theorem bit_cases (b : BitVec 1) : b = 0#1 ∨ b = 1#1 := by
  have := b.isLt
  rcases (by omega : b.toNat = 0 ∨ b.toNat = 1) with h | h
  · exact .inl (BitVec.eq_of_toNat_eq h)
  · exact .inr (BitVec.eq_of_toNat_eq h)

/-! The windows the encoder builds belong to their class, and their fields are the ones put in. -/

@[simp] theorem dispatch_rmWindow (d w : BitVec 1) (mod : BitVec 2) (reg rm : BitVec 3) :
    dispatch (rmWindow d w mod reg rm) = some .regMemToFromReg := by
  rw [dispatch_regMem, rmWindow_toNat]; omega
@[simp] theorem dispatch_irWindow (w : BitVec 1) (reg : BitVec 3) (data : Byte) :
    dispatch (irWindow w reg data) = some .immediateToReg := by
  rw [dispatch_immReg, irWindow_toNat]; omega
@[simp] theorem dispatch_irmWindow (w : BitVec 1) (byte1 : Byte) :
    dispatch (irmWindow w byte1) = some .immediateToRegMem := by
  rw [dispatch_immRegMem, irmWindow_toNat]; omega

section fields
variable (d w : BitVec 1) (mod : BitVec 2) (reg rm : BitVec 3) (data : Byte)
@[simp] theorem rmD_rmWindow : rmD (rmWindow d w mod reg rm) = d := by
  apply BitVec.eq_of_toNat_eq; rw [rmD_toNat, rmWindow_toNat]; omega
@[simp] theorem rmW_rmWindow : rmW (rmWindow d w mod reg rm) = w := by
  apply BitVec.eq_of_toNat_eq; rw [rmW_toNat, rmWindow_toNat]; omega
@[simp] theorem rmMod_rmWindow : rmMod (rmWindow d w mod reg rm) = mod := by
  apply BitVec.eq_of_toNat_eq; rw [rmMod_toNat, rmWindow_toNat]; omega
@[simp] theorem rmReg_rmWindow : rmReg (rmWindow d w mod reg rm) = reg := by
  apply BitVec.eq_of_toNat_eq; rw [rmReg_toNat, rmWindow_toNat]; omega
@[simp] theorem rmRm_rmWindow : rmRm (rmWindow d w mod reg rm) = rm := by
  apply BitVec.eq_of_toNat_eq; rw [rmRm_toNat, rmWindow_toNat]; omega
@[simp] theorem irW_irWindow : irW (irWindow w reg data) = w := by
  apply BitVec.eq_of_toNat_eq; rw [irW_toNat, irWindow_toNat]; omega
@[simp] theorem irReg_irWindow : irReg (irWindow w reg data) = reg := by
  apply BitVec.eq_of_toNat_eq; rw [irReg_toNat, irWindow_toNat]; omega
@[simp] theorem irData_irWindow : irData (irWindow w reg data) = data := by
  apply BitVec.eq_of_toNat_eq; rw [irData_toNat, irWindow_toNat]; omega
@[simp] theorem irmW_irmWindow : irmW (irmWindow w data) = w := by
  apply BitVec.eq_of_toNat_eq; rw [irmW_toNat, irmWindow_toNat]; omega
@[simp] theorem windowByte1_irmWindow : windowByte1 (irmWindow w data) = data := by
  apply BitVec.eq_of_toNat_eq; rw [windowByte1_toNat, irmWindow_toNat]; omega
end fields

/-! A window of a class is the encoder's window of its own fields. -/

theorem rmWindow_fields {W : Word} (h : dispatch W = some .regMemToFromReg) :
    rmWindow (rmD W) (rmW W) (rmMod W) (rmReg W) (rmRm W) = W := by
  rw [dispatch_regMem] at h
  apply BitVec.eq_of_toNat_eq
  rw [rmWindow_toNat, rmD_toNat, rmW_toNat, rmMod_toNat, rmReg_toNat, rmRm_toNat]; omega
theorem irWindow_fields {W : Word} (h : dispatch W = some .immediateToReg) :
    irWindow (irW W) (irReg W) (irData W) = W := by
  rw [dispatch_immReg] at h
  apply BitVec.eq_of_toNat_eq
  rw [irWindow_toNat, irW_toNat, irReg_toNat, irData_toNat]; omega
theorem irmWindow_fields {W : Word} (h : dispatch W = some .immediateToRegMem) :
    irmWindow (irmW W) (windowByte1 W) = W := by
  rw [dispatch_immRegMem] at h
  apply BitVec.eq_of_toNat_eq
  rw [irmWindow_toNat, irmW_toNat, windowByte1_toNat]; omega

/-! How many bytes each class needs. -/

theorem bytesNeeded_regMem {W : Word} (h : dispatch W = some .regMemToFromReg) :
    bytesNeeded W = some (2 + regMemExtra (rmMod W)) := by
  simp only [bytesNeeded, noDecode, lengthOf, h]
  split
  · rename_i hd
    rw [decide_eq_true_eq] at hd
    rw [hd.1]; rfl
  · rfl
theorem bytesNeeded_immReg {W : Word} (h : dispatch W = some .immediateToReg) :
    bytesNeeded W = some (2 + (irW W).toNat) := by
  simp [bytesNeeded, noDecode, lengthOf, h]
theorem bytesNeeded_immRegMem {W : Word} (h : dispatch W = some .immediateToRegMem) :
    bytesNeeded W = some 2 := by
  simp [bytesNeeded, noDecode, h]

/-- A matched window needs two bytes at the least. -/
theorem two_le_bytesNeeded {W : Word} {n : Nat} (h : bytesNeeded W = some n) : 2 ≤ n := by
  cases hd : dispatch W with
  | none => simp [bytesNeeded, hd] at h
  | some c =>
    cases c with
    | regMemToFromReg => rw [bytesNeeded_regMem hd] at h; injection h; omega
    | immediateToRegMem => rw [bytesNeeded_immRegMem hd] at h; injection h; omega
    | immediateToReg => rw [bytesNeeded_immReg hd] at h; injection h; omega

end Sys2Proof
end

