-- ==== Sys2Proof/Laws/State.lean ====
section
/-! SUPPORT. What each update of the state does to each field. -/

namespace Sys2Proof.Machine

section emitAdvance
variable (s : State) (rec : Record)
@[simp] theorem emitAdvance_stream : (s.emitAdvance rec).stream = s.stream := rfl
@[simp] theorem emitAdvance_streamLen : (s.emitAdvance rec).streamLen = s.streamLen := rfl
@[simp] theorem emitAdvance_resetLine : (s.emitAdvance rec).resetLine = s.resetLine := rfl
@[simp] theorem emitAdvance_cursor : (s.emitAdvance rec).cursor = s.cursor + rec.len := rfl
@[simp] theorem emitAdvance_status :
    (s.emitAdvance rec).status = if s.cursor + rec.len = s.streamLen then .done else .scanning := rfl
@[simp] theorem emitAdvance_err : (s.emitAdvance rec).err = s.err := rfl
@[simp] theorem emitAdvance_outLog : (s.emitAdvance rec).outLog = s.outLog ++ [rec] := rfl

/-- A successful step never ends in Failed. -/
theorem emitAdvance_not_failed : (s.emitAdvance rec).status ≠ .failed := by
  rw [emitAdvance_status]; split <;> simp
end emitAdvance

section enterFailure
variable (s : State) (kind : ErrKind) (window : Option Word)
@[simp] theorem enterFailure_stream : (s.enterFailure kind window).stream = s.stream := rfl
@[simp] theorem enterFailure_streamLen : (s.enterFailure kind window).streamLen = s.streamLen := rfl
@[simp] theorem enterFailure_resetLine : (s.enterFailure kind window).resetLine = s.resetLine := rfl
@[simp] theorem enterFailure_cursor : (s.enterFailure kind window).cursor = s.cursor := rfl
@[simp] theorem enterFailure_status : (s.enterFailure kind window).status = .failed := rfl
@[simp] theorem enterFailure_err : (s.enterFailure kind window).err = some ⟨kind, s.cursor, window⟩ := rfl
@[simp] theorem enterFailure_outLog : (s.enterFailure kind window).outLog = s.outLog := rfl
end enterFailure

section holdReset
variable (s : State)
@[simp] theorem holdReset_stream : s.holdReset.stream = s.stream := rfl
@[simp] theorem holdReset_streamLen : s.holdReset.streamLen = s.streamLen := rfl
@[simp] theorem holdReset_resetLine : s.holdReset.resetLine = s.resetLine := rfl
@[simp] theorem holdReset_cursor : s.holdReset.cursor = 0 := rfl
@[simp] theorem holdReset_status : s.holdReset.status = resetStatus s.streamLen := rfl
@[simp] theorem holdReset_err : s.holdReset.err = none := rfl
@[simp] theorem holdReset_outLog : s.holdReset.outLog = [] := rfl
@[simp] theorem holdReset_holdReset : s.holdReset.holdReset = s.holdReset := rfl
end holdReset

section placeAtCursor
variable (s : State) (bytes : List Byte)
@[simp] theorem placeAtCursor_stream : (s.placeAtCursor bytes).stream = s.stream.writeBytes s.cursor bytes := rfl
@[simp] theorem placeAtCursor_streamLen :
    (s.placeAtCursor bytes).streamLen = max s.streamLen (s.cursor + bytes.length) := rfl
@[simp] theorem placeAtCursor_resetLine : (s.placeAtCursor bytes).resetLine = false := rfl
@[simp] theorem placeAtCursor_cursor : (s.placeAtCursor bytes).cursor = s.cursor := rfl
@[simp] theorem placeAtCursor_status : (s.placeAtCursor bytes).status = .scanning := rfl
@[simp] theorem placeAtCursor_err : (s.placeAtCursor bytes).err = s.err := rfl
@[simp] theorem placeAtCursor_outLog : (s.placeAtCursor bytes).outLog = s.outLog := rfl
end placeAtCursor

/-- The status right after reset is never Failed. -/
theorem resetStatus_not_failed (n : Nat) : resetStatus n ≠ .failed := by
  unfold resetStatus; split <;> simp

end Sys2Proof.Machine
end

