-- ==== Sys2Proof/Laws/Ops.lean ====
section
/-! SUPPORT. What each shared operation can do, said once. -/

namespace Sys2Proof.Machine

/-- A read inside the stream answers the byte there. -/
theorem memRead_inside {s : State} {a : Nat} (h : a < s.streamLen) : memRead s a = .ok (streamAt s a) := if_pos h

/-- A read at or past `N` faults. -/
theorem memRead_outside {s : State} {a : Nat} (h : s.streamLen ≤ a) :
    memRead s a = .error (.readOutsideStream a) := if_neg (by omega)

/-- The window read inside the stream. -/
theorem memReadWindow_inside {s : State} {a : Nat} (h : a + 2 ≤ s.streamLen) :
    memReadWindow s a = .ok (windowAt s a) := by
  simp [memReadWindow, memRead_inside (show a < s.streamLen by omega),
    memRead_inside (show a + 1 < s.streamLen by omega), windowAt]

/-- The little-endian read inside the stream. -/
theorem memReadLE16_inside {s : State} {a : Nat} (h : a + 2 ≤ s.streamLen) :
    memReadLE16 s a = .ok (bytePair (streamAt s (a + 1)) (streamAt s a)) := by
  simp [memReadLE16, memRead_inside (show a < s.streamLen by omega),
    memRead_inside (show a + 1 < s.streamLen by omega)]

/-- Consecutive reads inside the stream. -/
theorem memReadBytes_inside {s : State} : ∀ {n a : Nat}, a + n ≤ s.streamLen →
    memReadBytes s a n = .ok ((List.range n).map fun k => streamAt s (a + k)) := by
  intro n
  induction n with
  | zero => intro a _; rfl
  | succ n ih =>
    intro a h
    simp only [memReadBytes, memRead_inside (show a < s.streamLen by omega), ih (show a + 1 + n ≤ s.streamLen by omega),
      List.range_succ_eq_map, List.map_cons, List.map_map]
    simp [Function.comp_def, Nat.add_assoc, Nat.add_comm 1]

/-- `emitChecked` fails TruncatedStream on a short stream, and emits otherwise. -/
theorem emitChecked_short {W : Word} {rec : Record} {s : State} (h : s.avail < rec.len) :
    emitChecked W rec s = .next (s.enterFailure .truncatedStream (some W)) := if_pos h
theorem emitChecked_fits {W : Word} {rec : Record} {s : State} (h : rec.len ≤ s.avail) :
    emitChecked W rec s = .next (s.emitAdvance rec) := if_neg (by omega)

/-- `emitNoDisp` emits for every `rm` but 110. -/
theorem emitNoDisp_eq {W : Word} {d w : BitVec 1} {reg rm : BitVec 3} {s : State} (h : rm ≠ 6#3) :
    emitNoDisp W d w reg rm s =
      emitChecked W (regMemRecord d (regOperand reg w) (.mem ⟨eaBase rm, .none⟩) 2) s := by
  simp [emitNoDisp, effAddrNoDisp, h]

/-- `emitNoDisp` fails NotImplemented for `rm` = 110. -/
theorem emitNoDisp_direct {W : Word} {d w : BitVec 1} {reg : BitVec 3} {s : State} :
    emitNoDisp W d w reg 6#3 s = .next (s.enterFailure .notImplemented (some W)) := rfl

/-- What an instruction can do in any state: enter a failure, or emit one record of 2 to 4 bytes that fits. -/
def Outcomes (s : State) (o : Host.Outcome State Fault Refusal) : Prop :=
  (∃ kind window, o = .next (s.enterFailure kind window)) ∨
  (∃ rec : Record, recordWf rec = true ∧ 2 ≤ rec.len ∧ rec.len ≤ 4 ∧ rec.len ≤ s.avail ∧ o = .next (s.emitAdvance rec))

theorem emitChecked_outcomes {W : Word} {rec : Record} {s : State} (hwf : recordWf rec = true) (h2 : 2 ≤ rec.len)
    (h4 : rec.len ≤ 4) : Outcomes s (emitChecked W rec s) := by
  by_cases h : s.avail < rec.len
  · exact .inl ⟨_, _, emitChecked_short h⟩
  · exact .inr ⟨rec, hwf, h2, h4, by omega, emitChecked_fits (by omega)⟩

end Sys2Proof.Machine
end

