-- ==== Sys2Proof/Laws/Records.lean ====
section
/-! SUPPORT. Every record a meaning builds is well formed, and what an instruction or a step can do. -/

namespace Sys2Proof.Machine

/-- The register of a field has the width of the width bit. -/
@[simp] theorem regWidth_regOf (f : BitVec 3) (w : BitVec 1) : regWidth (regOf f w) = w := by
  revert f w; decide

/-- The field of a register is the one that names it. -/
@[simp] theorem regIx_regOf (f : BitVec 3) (w : BitVec 1) : regIx (regOf f w) = f := by
  revert f w; decide

/-- The register named by its own field and width. -/
@[simp] theorem regOf_regIx (r : Reg) : regOf (regIx r) (regWidth r) = r := by
  revert r; intro r; cases r <;> rfl

/-- `BP` is the base of `rm` = 110 only. -/
theorem eaBase_bp {rm : BitVec 3} (h : eaBase rm = .bp) : rm = 6#3 := by
  revert h; revert rm; decide

/-- A sign-extended byte lies in [-128, 127]. -/
theorem sext16_range (b : Byte) : -128 ≤ (sext16 b).toInt ∧ (sext16 b).toInt ≤ 127 := by
  rw [sext16, BitVec.toInt_signExtend_of_le (by decide)]
  have h₁ := @BitVec.le_toInt 8 b
  have h₂ := @BitVec.toInt_lt 8 b
  constructor <;> omega

theorem order_wf {d : BitVec 1} {regOp rmOp : Operand} {len : Nat}
    (h₁ : recordWf ⟨.mov, regOp, rmOp, len⟩ = true) (h₂ : recordWf ⟨.mov, rmOp, regOp, len⟩ = true) :
    recordWf (regMemRecord d regOp rmOp len) = true := by
  by_cases h : d = 1#1 <;> simp [regMemRecord, order, h, h₁, h₂]

theorem regRecord_wf (d w : BitVec 1) (reg rm : BitVec 3) :
    recordWf (regMemRecord d (regOperand reg w) (regOperand rm w) 2) = true :=
  order_wf (by simp [recordWf, regOperand]) (by simp [recordWf, regOperand])

theorem memRecord_wf {d w : BitVec 1} {reg : BitVec 3} {ea : EffAddr} {len : Nat} (h : memLenOk ea len = true) :
    recordWf (regMemRecord d (regOperand reg w) (.mem ea) len) = true :=
  order_wf (by simpa [recordWf, regOperand] using h) (by simpa [recordWf, regOperand] using h)

theorem noDispRecord_wf {d w : BitVec 1} {reg rm : BitVec 3} (h : rm ≠ 6#3) :
    recordWf (regMemRecord d (regOperand reg w) (.mem ⟨eaBase rm, .none⟩) 2) = true :=
  memRecord_wf (by simpa [memLenOk] using fun hb => h (eaBase_bp hb))

theorem disp8Record_wf (d w : BitVec 1) (reg rm : BitVec 3) (b : Byte) :
    recordWf (regMemRecord d (regOperand reg w) (memOperand rm (disp8 b)) 3) = true :=
  memRecord_wf (by simpa [memLenOk, disp8] using sext16_range b)

theorem disp16Record_wf (d w : BitVec 1) (reg rm : BitVec 3) (u : Word) :
    recordWf (regMemRecord d (regOperand reg w) (memOperand rm (disp16 u)) 4) = true :=
  memRecord_wf (by simp [memLenOk, disp16])

theorem imm8Record_wf (reg : BitVec 3) (b : Byte) : recordWf (immRegRecord reg 0#1 (sext16 b) 2) = true := by
  simpa [recordWf, immRegRecord, regOperand] using sext16_range b

theorem imm16Record_wf (reg : BitVec 3) (u : Word) : recordWf (immRegRecord reg 1#1 (signed16 u) 3) = true := by
  simp [recordWf, immRegRecord, regOperand]

theorem emitNoDisp_outcomes (W : Word) (d w : BitVec 1) (reg rm : BitVec 3) (s : State) :
    Outcomes s (emitNoDisp W d w reg rm s) := by
  by_cases h : rm = 6#3
  · subst h; exact .inl ⟨_, _, emitNoDisp_direct⟩
  · rw [emitNoDisp_eq h]; exact emitChecked_outcomes (noDispRecord_wf h) (by simp [regMemRecord]) (by simp [regMemRecord])

/-- What an instruction can do: enter a failure, or emit one well-formed record that fits. -/
theorem exec_outcomes (i : Instr) (s : State) : Outcomes s (exec i s) := by
  cases i with
  | movRR d w reg rm =>
    exact emitChecked_outcomes (regRecord_wf d w reg rm) (by simp [regMemRecord]) (by simp [regMemRecord])
  | movM0a d w reg rm => exact emitNoDisp_outcomes _ d w reg rm s
  | movM0b d w reg rm => exact emitNoDisp_outcomes _ d w reg rm s
  | movM0c d w reg => exact emitNoDisp_outcomes _ d w reg 7#3 s
  | movDirect d w reg => exact .inl ⟨_, _, rfl⟩
  | movM8 d w reg rm disp =>
    exact emitChecked_outcomes (disp8Record_wf d w reg rm disp) (by simp [regMemRecord]) (by simp [regMemRecord])
  | movM16 d w reg rm disp =>
    exact emitChecked_outcomes (disp16Record_wf d w reg rm disp) (by simp [regMemRecord]) (by simp [regMemRecord])
  | movIR8 reg data =>
    exact emitChecked_outcomes (imm8Record_wf reg data) (by simp [immRegRecord]) (by simp [immRegRecord])
  | movIR16 reg data =>
    exact emitChecked_outcomes (imm16Record_wf reg data) (by simp [immRegRecord]) (by simp [immRegRecord])
  | movIRM w byte1 => exact .inl ⟨_, _, rfl⟩

end Sys2Proof.Machine
end

