-- ==== Sys2Proof/Laws/Fetch.lean ====
section
/-! SUPPORT. The fetch is the decoder over the bytes that remain, and what a step can do. -/

namespace Sys2Proof

/-- What the decoder can do with a window and the bytes after it, when a class matches: reject a short instruction, or
answer one instruction from exactly the bytes the window needs. -/
def DecodesFrom (W : Word) (rest : List Byte) (n : Nat) (answer : List Byte → Except DecodeError (Instr × List Byte)) :
    Prop :=
  (rest.length < n - 2 ∧ answer rest = .error (.truncated W)) ∨
  (n - 2 ≤ rest.length ∧ ∃ i : Instr, answer rest = .ok (i, rest.drop (n - 2)) ∧
    answer (rest.take (n - 2)) = .ok (i, []))

theorem decodeRegMem_from (W : Word) (rest : List Byte) :
    DecodesFrom W rest (2 + regMemExtra (rmMod W)) (decodeRegMem W) := by
  rcases mod_cases (rmMod W) with h | h | h | h
  · exact .inr ⟨by rw [h]; exact Nat.zero_le _, _, by rw [decodeRegMem_noDisp h, h]; rfl,
      by rw [decodeRegMem_noDisp h, h]; rfl⟩
  · cases rest with
    | nil => exact .inl ⟨by rw [h]; exact Nat.one_pos, decodeRegMem_m8_short h⟩
    | cons b2 r =>
      exact .inr ⟨by rw [h]; exact Nat.succ_le_succ (Nat.zero_le _), _, by rw [decodeRegMem_m8 h, h]; rfl,
        by rw [h]; exact decodeRegMem_m8 h⟩
  · match rest with
    | [] => exact .inl ⟨by rw [h]; decide, decodeRegMem_m16_short h (by decide)⟩
    | [b2] => exact .inl ⟨by rw [h]; exact Nat.lt_succ_self 1, decodeRegMem_m16_short h (by simp)⟩
    | b2 :: b3 :: r =>
      exact .inr ⟨by rw [h]; exact Nat.succ_le_succ (Nat.succ_le_succ (Nat.zero_le _)), _,
        by rw [decodeRegMem_m16 h, h]; rfl, by rw [h]; exact decodeRegMem_m16 h⟩
  · exact .inr ⟨by rw [h]; exact Nat.zero_le _, _, by rw [decodeRegMem_rr h, h]; rfl, by rw [decodeRegMem_rr h, h]; rfl⟩

theorem decodeImmReg_from (W : Word) (rest : List Byte) :
    DecodesFrom W rest (2 + (irW W).toNat) (decodeImmReg W) := by
  rcases bit_cases (irW W) with h | h
  · exact .inr ⟨by rw [h]; exact Nat.zero_le _, _, by rw [decodeImmReg_ir8 h, h]; rfl, by rw [decodeImmReg_ir8 h, h]; rfl⟩
  · cases rest with
    | nil => exact .inl ⟨by rw [h]; exact Nat.one_pos, decodeImmReg_ir16_short h⟩
    | cons b2 r =>
      exact .inr ⟨by rw [h]; exact Nat.succ_le_succ (Nat.zero_le _), _, by rw [decodeImmReg_ir16 h, h]; rfl,
        by rw [h]; exact decodeImmReg_ir16 h⟩

/-- The decoder rejects a window of no class. -/
theorem decode_unsupported {b0 b1 : Byte} (rest : List Byte) (h : bytesNeeded (bytePair b0 b1) = none) :
    decode (b0 :: b1 :: rest) = .error (.unsupported (bytePair b0 b1)) := by
  cases hd : dispatch (bytePair b0 b1) with
  | none => simp [decode, hd]
  | some c =>
    cases c with
    | regMemToFromReg => rw [bytesNeeded_regMem hd] at h; exact absurd h (by simp)
    | immediateToRegMem => rw [bytesNeeded_immRegMem hd] at h; exact absurd h (by simp)
    | immediateToReg => rw [bytesNeeded_immReg hd] at h; exact absurd h (by simp)

/-- The decoder on a window of some class. -/
theorem decode_from {b0 b1 : Byte} {n : Nat} (rest : List Byte) (h : bytesNeeded (bytePair b0 b1) = some n) :
    DecodesFrom (bytePair b0 b1) rest n fun r => decode (b0 :: b1 :: r) := by
  cases hd : dispatch (bytePair b0 b1) with
  | none => simp [bytesNeeded, hd] at h
  | some c =>
    cases c with
    | regMemToFromReg =>
      rw [bytesNeeded_regMem hd] at h
      injection h with h; subst h
      simpa [DecodesFrom, decode, hd] using decodeRegMem_from (bytePair b0 b1) rest
    | immediateToRegMem =>
      rw [bytesNeeded_immRegMem hd] at h
      injection h with h; subst h
      exact .inr ⟨by simp, by simp [decode, hd]⟩
    | immediateToReg =>
      rw [bytesNeeded_immReg hd] at h
      injection h with h; subst h
      simpa [DecodesFrom, decode, hd] using decodeImmReg_from (bytePair b0 b1) rest

end Sys2Proof

namespace Sys2Proof.Machine

/-- The bytes that remain are the first `n` and the rest. -/
theorem remaining_split {s : State} {n : Nat} (h : n ≤ s.avail) :
    s.remaining = ((List.range n).map fun k => streamAt s (s.cursor + k)) ++
      ((List.range (s.avail - n)).map fun k => streamAt s (s.cursor + n + k)) := by
  rw [State.remaining, show s.avail = n + (s.avail - n) by omega, List.range_add, List.map_append, List.map_map]
  simp [Function.comp_def, Nat.add_assoc]

/-- The first two bytes that remain are the window's. -/
theorem remaining_cons {s : State} (h : 2 ≤ s.avail) :
    s.remaining = streamAt s s.cursor :: streamAt s (s.cursor + 1) ::
      ((List.range (s.avail - 2)).map fun k => streamAt s (s.cursor + 2 + k)) := by
  rw [remaining_split h]; rfl

/-- With fewer than two bytes the decoder rejects. -/
theorem decode_remaining_short {s : State} (h : s.avail < 2) : decode s.remaining = .error .shortWindow := by
  rw [State.remaining]
  rcases (by omega : s.avail = 0 ∨ s.avail = 1) with h | h <;> rw [h] <;> rfl

/-- What the decoder answers without the bytes left over. -/
def instrOf (answer : Except DecodeError (Instr × List Byte)) : Except DecodeError Instr :=
  match answer with
  | .ok (i, _) => .ok i
  | .error e => .error e

/-- The fetch never faults: it is the decoder over the bytes that remain. -/
theorem fetch_eq (s : State) : fetch s = .ok (instrOf (decode s.remaining)) := by
  by_cases h : s.avail < 2
  · rw [fetch, if_pos h, decode_remaining_short h]; rfl
  · have h2 : 2 ≤ s.avail := by omega
    have hc : s.cursor + 2 ≤ s.streamLen := by simp only [State.avail] at h2; omega
    rw [fetch, if_neg h, memReadWindow_inside hc, remaining_cons h2]
    cases hn : bytesNeeded (windowAt s s.cursor) with
    | none =>
      rw [decode_unsupported _ hn]; simp only [hn]; rfl
    | some n =>
      have hn2 := two_le_bytesNeeded hn
      simp only [hn]
      rcases decode_from ((List.range (s.avail - 2)).map fun k => streamAt s (s.cursor + 2 + k)) hn with
        ⟨hl, hd⟩ | ⟨hl, i, hd, ht⟩
      · dsimp only at hd
        rw [List.length_map, List.length_range] at hl
        rw [if_pos (by omega), hd]; rfl
      · dsimp only at hd ht
        rw [List.length_map, List.length_range] at hl
        have hr : ((List.range n).map fun k => streamAt s (s.cursor + k)) =
            streamAt s s.cursor :: streamAt s (s.cursor + 1) ::
              ((List.range (s.avail - 2)).map fun k => streamAt s (s.cursor + 2 + k)).take (n - 2) := by
          rw [← List.map_take, List.take_range, Nat.min_eq_left hl]
          conv_lhs => rw [show n = 2 + (n - 2) by omega, List.range_add, List.map_append, List.map_map]
          simp [Function.comp_def, Nat.add_assoc, List.range_succ]
        rw [if_neg (by omega), memReadBytes_inside (by simp only [State.avail] at hl h2; omega), hr, hd]
        simp only [ht]; rfl

/-- A scanning step over an instruction runs it; over a rejection it enters its failure. -/
theorem stepScanning_eq (s : State) :
    stepScanning s =
      match decode s.remaining with
      | .ok (i, _) => exec i s
      | .error e => raiseFail e.kind e.window s := by
  rw [stepScanning, fetch_eq]
  rcases decode s.remaining with e | ⟨i, r⟩ <;> rfl

/-- What a step of an enabled block can do. -/
theorem step_outcomes {s : State} (h : s.enabled) : Outcomes s (step s) := by
  rw [step, stepBlock, h.1, h.2]
  simp only [Bool.false_eq_true, ↓reduceIte]
  rw [stepScanning_eq]
  split
  · exact exec_outcomes _ s
  · exact .inl ⟨_, _, rfl⟩

/-- What a step does where none is enabled. -/
theorem step_in_reset {s : State} (h : s.resetLine = true) : step s = .next s.holdReset := by
  rw [step, stepBlock, if_pos h]
theorem step_terminal {s : State} (hr : s.resetLine = false) (hs : s.status ≠ .scanning) : step s = .next s := by
  rw [step, stepBlock, hr]
  cases h : s.status <;> simp_all

/-- Everything a step can do, in any state. -/
theorem step_cases (s : State) :
    (s.resetLine = true ∧ step s = .next s.holdReset) ∨
    (s.resetLine = false ∧ s.status ≠ .scanning ∧ step s = .next s) ∨
    (s.enabled ∧ Outcomes s (step s)) := by
  cases hr : s.resetLine with
  | true => exact .inl ⟨rfl, step_in_reset hr⟩
  | false =>
    by_cases hs : s.status = .scanning
    · exact .inr (.inr ⟨⟨hr, hs⟩, step_outcomes ⟨hr, hs⟩⟩)
    · exact .inr (.inl ⟨rfl, hs, step_terminal hr hs⟩)

end Sys2Proof.Machine
end

