-- ==== Sys2Proof/Laws/HostPort.lean ====
section
/-! SUPPORT. What a host move and a reading of the host's registers can be, said once. -/

namespace Sys2Proof.Machine

/-- A host move is one of three: reset asserted, reset deasserted, or a load in reset that `CURSOR_W` can count. -/
theorem hostMove_cases {cw : Nat} {m : HostMove} {s t : State} (h : hostMove cw m s = some t) :
    (m = .assertReset ∧ t = { s.holdReset with resetLine := true }) ∨
    (m = .deassertReset ∧ t = { s with resetLine := false }) ∨
    ∃ bytes, m = .load bytes ∧ s.resetLine = true ∧ bytes.length ≤ 2 ^ cw - 1 ∧ t = s.loaded bytes := by
  cases m with
  | assertReset => exact .inl ⟨rfl, (Option.some.inj h).symm⟩
  | deassertReset => exact .inr (.inl ⟨rfl, (Option.some.inj h).symm⟩)
  | load bytes =>
    obtain ⟨hb, rfl⟩ : (s.resetLine = true ∧ bytes.length ≤ 2 ^ cw - 1) ∧ s.loaded bytes = t := by
      simpa [hostMove] using h
    exact .inr (.inr ⟨bytes, rfl, hb.1, hb.2, rfl⟩)

/-- A load in reset that `CURSOR_W` can count is a move. -/
theorem hostMove_load {cw : Nat} {bytes : List Byte} {s : State} (hr : s.resetLine = true)
    (hn : bytes.length ≤ 2 ^ cw - 1) : hostMove cw (.load bytes) s = some (s.loaded bytes) := if_pos ⟨hr, hn⟩

/-- With no failure ERR_WINDOW reads 0. -/
theorem regErrWindow_none {s : State} (h : s.err = none) : regErrWindow s = 0#16 := by simp [regErrWindow, h]

/-- With a failure that has a window ERR_WINDOW reads it. -/
theorem regErrWindow_some {s : State} {kind : ErrKind} {offset : Nat} {w : Word} (h : s.err = some ⟨kind, offset, some w⟩) :
    regErrWindow s = w := by simp [regErrWindow, h]

end Sys2Proof.Machine
end

