-- ==== Sys2Proof/Laws/Memory.lean ====
section
/-! SUPPORT. The stream's laws: the operations keep the canonical form, and reading what was written. -/

namespace Sys2Proof.Machine

/-- An offset at which no cell stands reads as the unlisted byte. -/
theorem Memory.read_of_not_mem (m : Memory) (a : Nat) (h : a ∉ m.map Prod.fst) :
    m.read a = Config.unlistedByte := by
  induction m with
  | nil => rfl
  | cons c rest ih =>
    obtain ⟨k, v⟩ := c
    simp only [List.map_cons, List.mem_cons, not_or] at h
    simp [Memory.read, Ne.symm h.1, ih h.2]

/-- The offsets a write leaves are old ones or the written one. -/
theorem Memory.mem_write {m : Memory} {a : Nat} {b : Byte} {c : Host.Cell} (h : c ∈ Memory.write m a b) :
    c ∈ m ∨ (c = (a, b) ∧ b ≠ Config.unlistedByte) := by
  induction m with
  | nil =>
    simp only [Memory.write] at h
    split at h <;> simp_all
  | cons d rest ih =>
    obtain ⟨k, v⟩ := d
    simp only [Memory.write] at h
    split at h
    · rcases List.mem_cons.mp h with h | h
      · exact .inl (by simp [h])
      · rcases ih h with h | h
        · exact .inl (by simp [h])
        · exact .inr h
    · split at h
      · split at h
        · exact .inl (by simp [h])
        · rcases List.mem_cons.mp h with h | h
          · exact .inr ⟨h, by assumption⟩
          · exact .inl (by simp [h])
      · split at h
        · exact .inl h
        · rcases List.mem_cons.mp h with h | h
          · exact .inr ⟨h, by assumption⟩
          · exact .inl h

/-- A write keeps the canonical form, of any length that covers the written offset. -/
theorem Memory.write_wf {m : Memory} {n a : Nat} {b : Byte} (hm : m.wf n) (ha : a < n) : (m.write a b).wf n := by
  obtain ⟨hs, hc⟩ := hm
  refine ⟨?_, fun c h => ?_⟩
  · induction m with
    | nil => simp only [Memory.write]; split <;> simp
    | cons d rest ih =>
      obtain ⟨k, v⟩ := d
      rw [List.map_cons, List.pairwise_cons] at hs
      have ih := ih hs.2 fun c h => hc c (by simp [h])
      simp only [Memory.write]
      split
      · rename_i hka
        rw [List.map_cons, List.pairwise_cons]
        refine ⟨fun x hx => ?_, ih⟩
        obtain ⟨c, hcm, rfl⟩ := List.mem_map.mp hx
        rcases Memory.mem_write hcm with h | h
        · exact hs.1 _ (List.mem_map_of_mem h)
        · simpa [h.1] using hka
      · split
        · rename_i hka
          split
          · exact hs.2
          · subst hka; exact List.pairwise_cons.mpr hs
        · rename_i hlt hne
          split
          · exact List.pairwise_cons.mpr hs
          · have hak : a < k := by omega
            refine List.pairwise_cons.mpr ⟨fun x hx => ?_, List.pairwise_cons.mpr hs⟩
            rcases List.mem_cons.mp hx with rfl | hx
            · exact hak
            · exact hak.trans (hs.1 x hx)
  · rcases Memory.mem_write h with h | ⟨rfl, hb⟩
    · exact hc c h
    · exact ⟨ha, hb⟩

/-- Reading the written offset gives the written byte. -/
theorem Memory.read_write_same {m : Memory} (hs : (m.map Prod.fst).Pairwise (· < ·)) (a : Nat) (b : Byte) :
    (m.write a b).read a = b := by
  induction m with
  | nil =>
    simp only [Memory.write]
    split
    · rename_i h; simp [Memory.read, h]
    · simp [Memory.read]
  | cons d rest ih =>
    obtain ⟨k, v⟩ := d
    rw [List.map_cons, List.pairwise_cons] at hs
    simp only [Memory.write]
    split
    · rename_i h
      simp [Memory.read, Nat.ne_of_lt h, ih hs.2]
    · split
      · rename_i hka
        split
        · rename_i hb
          rw [hb]
          refine Memory.read_of_not_mem rest a fun h => ?_
          exact absurd (hs.1 a h) (by omega)
        · simp [Memory.read]
      · rename_i hlt hne
        split
        · rename_i hb
          rw [hb]
          refine Memory.read_of_not_mem _ a fun h => ?_
          rcases List.mem_cons.mp h with h | h
          · exact hne h.symm
          · exact absurd (hs.1 a h) (by omega)
        · simp [Memory.read]

/-- Reading another offset gives what it gave before. -/
theorem Memory.read_write_other (m : Memory) {a x : Nat} (h : x ≠ a) (b : Byte) :
    (m.write a b).read x = m.read x := by
  induction m with
  | nil =>
    simp only [Memory.write]
    split
    · rfl
    · simp [Memory.read, Ne.symm h]
  | cons d rest ih =>
    obtain ⟨k, v⟩ := d
    simp only [Memory.write]
    split
    · simp [Memory.read, ih]
    · split
      · rename_i hka
        subst hka
        split <;> simp [Memory.read, Ne.symm h]
      · split <;> simp [Memory.read, Ne.symm h]

/-- Writing consecutive bytes keeps the canonical form. -/
theorem Memory.writeBytes_wf {bs : List Byte} : ∀ {m : Memory} {n a : Nat}, m.wf n → a + bs.length ≤ n →
    (m.writeBytes a bs).wf n := by
  induction bs with
  | nil => intro m n a hm _; exact hm
  | cons b bs ih =>
    intro m n a hm hn
    rw [List.length_cons] at hn
    exact ih (Memory.write_wf hm (by omega)) (by omega)

/-- Offsets before the written bytes read as before. -/
theorem Memory.read_writeBytes_before {bs : List Byte} : ∀ {m : Memory} {a x : Nat}, x < a →
    (m.writeBytes a bs).read x = m.read x := by
  induction bs with
  | nil => intro m a x _; rfl
  | cons b bs ih =>
    intro m a x h
    exact (ih (by omega)).trans (Memory.read_write_other m (by omega) b)

/-- Offset `a + k` reads as byte `k` of the written bytes. -/
theorem Memory.read_writeBytes {bs : List Byte} : ∀ {m : Memory} {n a : Nat}, m.wf n → a + bs.length ≤ n →
    ∀ k (hk : k < bs.length), (m.writeBytes a bs).read (a + k) = bs[k] := by
  induction bs with
  | nil => intro m n a _ _ k hk; exact absurd hk (by simp)
  | cons b bs ih =>
    intro m n a hm hn k hk
    have hn' : a + 1 + bs.length ≤ n := by rw [List.length_cons] at hn; omega
    have hw : (m.write a b).wf n := Memory.write_wf hm (by omega)
    cases k with
    | zero =>
      have before := Memory.read_writeBytes_before (bs := bs) (m := m.write a b) (Nat.lt_succ_self a)
      simpa [Memory.writeBytes, Memory.read_write_same hm.1] using before
    | succ k =>
      have after := ih hw hn' k (Nat.lt_of_succ_lt_succ hk)
      rw [show a + 1 + k = a + (k + 1) by omega] at after
      simpa [Memory.writeBytes] using after

/-- The form does not depend on the length but for covering the offsets. -/
theorem Memory.wf_mono {m : Memory} {n n' : Nat} (h : m.wf n) (hn : n ≤ n') : m.wf n' :=
  ⟨h.1, fun c hc => ⟨(h.2 c hc).1.trans_le hn, (h.2 c hc).2⟩⟩

/-- A loaded stream has the canonical form. -/
theorem Memory.ofBytes_wf (bs : List Byte) : (Memory.ofBytes bs).wf bs.length :=
  Memory.writeBytes_wf (by simp [Memory.wf]) (by simp)

/-- A loaded stream reads as its bytes. -/
theorem Memory.read_ofBytes (bs : List Byte) (k : Nat) (hk : k < bs.length) :
    (Memory.ofBytes bs).read k = bs[k] := by
  have := Memory.read_writeBytes (m := []) (n := bs.length) (a := 0) (by simp [Memory.wf]) (by simp) k hk
  simpa [Memory.ofBytes] using this

/-- The stream of the state right after reset has the canonical form. -/
theorem reset_memory_wf : Memory.wf State.reset.stream State.reset.streamLen := by decide

end Sys2Proof.Machine
end

