-- ==== Sys2Proof/Laws/PerInstr.lean ====
section
/-! SUPPORT. Statements made per instruction. Family EncodeLength: the encoder writes as many bytes as the step reads for
that window (20_memory.md R54, 30_encoding.md R83). -/

namespace Sys2Proof.Laws.EncodeLength

/-- The bytes of an instruction are as many as its window needs. -/
def Statement (i : Instr) : Prop := bytesNeeded i.window = some (encode i).length

theorem movRR (d w : BitVec 1) (reg rm : BitVec 3) : Statement (.movRR d w reg rm) := by
  simp [Statement, Instr.window, encode, Instr.tail, bytesNeeded_regMem, regMemExtra]
theorem movM0a (d w : BitVec 1) (reg rm : BitVec 3) : Statement (.movM0a d w reg rm) := by
  simp [Statement, Instr.window, encode, Instr.tail, bytesNeeded_regMem, regMemExtra]
theorem movM0b (d w : BitVec 1) (reg rm : BitVec 3) : Statement (.movM0b d w reg rm) := by
  simp [Statement, Instr.window, encode, Instr.tail, bytesNeeded_regMem, regMemExtra]
theorem movM0c (d w : BitVec 1) (reg : BitVec 3) : Statement (.movM0c d w reg) := by
  simp [Statement, Instr.window, encode, Instr.tail, bytesNeeded_regMem, regMemExtra]
theorem movDirect (d w : BitVec 1) (reg : BitVec 3) : Statement (.movDirect d w reg) := by
  simp [Statement, Instr.window, encode, Instr.tail, bytesNeeded_regMem, regMemExtra]
theorem movM8 (d w : BitVec 1) (reg rm : BitVec 3) (disp : Byte) : Statement (.movM8 d w reg rm disp) := by
  simp [Statement, Instr.window, encode, Instr.tail, bytesNeeded_regMem, regMemExtra]
theorem movM16 (d w : BitVec 1) (reg rm : BitVec 3) (disp : Word) : Statement (.movM16 d w reg rm disp) := by
  simp [Statement, Instr.window, encode, Instr.tail, bytesNeeded_regMem, regMemExtra]
theorem movIR8 (reg : BitVec 3) (data : Byte) : Statement (.movIR8 reg data) := by
  simp [Statement, Instr.window, encode, Instr.tail, bytesNeeded_immReg]
theorem movIR16 (reg : BitVec 3) (data : Word) : Statement (.movIR16 reg data) := by
  simp [Statement, Instr.window, encode, Instr.tail, bytesNeeded_immReg]
theorem movIRM (w : BitVec 1) (byte1 : Byte) : Statement (.movIRM w byte1) := by
  simp [Statement, Instr.window, encode, Instr.tail, bytesNeeded_immRegMem]

end Sys2Proof.Laws.EncodeLength
end

