-- ==== Sys2Proof/Machine/Flags.lean ====
section
/-! DEFINITION. No flags: 10_state.md R31, "The block has no status flags or condition codes." The instruction fields `d`
and `w` are extracted anew in each step and kept in no register, so no flag computation exists and this file declares
nothing. -/
end

