-- ==== Sys2Proof/Tests/Slice0.lean ====
section
/-! SUPPORT. Tests of single steps, decodes and encodes, with every expected result taken from 95_test_vectors.md (named by
its id) or read off the formats of 30_encoding.md R70; and for each statement with hypotheses a concrete state and operands
that meet all of them. -/

namespace Sys2Proof.Tests

open Sys2Proof Sys2Proof.Machine

/-- The state after the first step over these bytes. -/
def afterOne (bytes : List Byte) : Option State := nextOf (step (resetState bytes))

/-- What the first step over these bytes emits. -/
def firstLog (bytes : List Byte) : Option (List Record) := (afterOne bytes).map State.outLog

/-- What the first step over these bytes records as its failure. -/
def firstErr (bytes : List Byte) : Option (Option ErrRec) := (afterOne bytes).map State.err

/-- The first step's cursor and status. -/
def firstPos (bytes : List Byte) : Option (Nat × Status) := (afterOne bytes).map fun s => (s.cursor, s.status)

/-- What the decoder reads, as an option. -/
def decoded (bytes : List Byte) : Option (Instr × List Byte) := (decode bytes).toOption

/-! ### Well-formedness (30_encoding.md R79) -/

theorem test_wf_refuses_m0a_rm_100 : (Instr.movM0a 0#1 1#1 0#3 4#3).wf = false := by decide
theorem test_wf_refuses_m0a_rm_110 : (Instr.movM0a 0#1 1#1 0#3 6#3).wf = false := by decide
theorem test_wf_refuses_m0b_rm_011 : (Instr.movM0b 0#1 1#1 0#3 3#3).wf = false := by decide
theorem test_wf_refuses_m0b_rm_110 : (Instr.movM0b 0#1 1#1 0#3 6#3).wf = false := by decide
theorem test_wf_accepts_boundaries :
    (Instr.movM0a 0#1 1#1 0#3 3#3).wf = true ∧ (Instr.movM0b 0#1 1#1 0#3 4#3).wf = true ∧
    (Instr.movM0b 0#1 1#1 0#3 5#3).wf = true := by decide

/-! ### Decoding: words written out bit by bit from R70 -/

/-- 100010 d w, mod reg rm: d = 1, w = 0, mod = 11, reg = 000, rm = 100 (V4). -/
theorem test_decode_rr : decoded [0b10001010#8, 0b11000100#8] = some (.movRR 1#1 0#1 0#3 4#3, []) := by decide
/-- d = 0, w = 0, mod = 00, reg = 011, rm = 010 (V14). -/
theorem test_decode_m0a : decoded [0b10001000#8, 0b00011010#8] = some (.movM0a 0#1 0#1 3#3 2#3, []) := by decide
/-- d = 0, w = 0, mod = 00, reg = 100, rm = 100 (V16). -/
theorem test_decode_m0b : decoded [0b10001000#8, 0b00100100#8] = some (.movM0b 0#1 0#1 4#3 4#3, []) := by decide
/-- d = 1, w = 0, mod = 00, reg = 110, rm = 111 (V17). -/
theorem test_decode_m0c : decoded [0b10001010#8, 0b00110111#8] = some (.movM0c 1#1 0#1 6#3, []) := by decide
/-- d = 0, w = 1, mod = 00, reg = 111, rm = 110 (V21). -/
theorem test_decode_direct :
    decoded [0b10001001#8, 0b00111110#8, 0x34#8] = some (.movDirect 0#1 1#1 7#3, [0x34#8]) := by decide
/-- d = 0, w = 1, mod = 01, reg = 011, rm = 110, byte 2 = 80 (V25). -/
theorem test_decode_m8 :
    decoded [0b10001001#8, 0b01011110#8, 0x80#8] = some (.movM8 0#1 1#1 3#3 6#3 0x80#8, []) := by decide
/-- d = 0, w = 0, mod = 10, reg = 001, rm = 101, low byte 05, high byte 00 (V31). -/
theorem test_decode_m16 :
    decoded [0b10001000#8, 0b10001101#8, 0x05#8, 0x00#8] = some (.movM16 0#1 0#1 1#3 5#3 0x0005#16, []) := by decide
/-- 1011 w reg, data: w = 0, reg = 111 (V38). -/
theorem test_decode_ir8 : decoded [0b10110111#8, 0xFF#8] = some (.movIR8 7#3 0xFF#8, []) := by decide
/-- w = 1, reg = 111, low byte FF, high byte 7F (V44). -/
theorem test_decode_ir16 : decoded [0b10111111#8, 0xFF#8, 0x7F#8] = some (.movIR16 7#3 0x7FFF#16, []) := by decide
/-- 1100011 w, byte 1 untested (V49). -/
theorem test_decode_irm : decoded [0b11000111#8, 0xFF#8] = some (.movIRM 1#1 0xFF#8, []) := by decide
/-- The rejections by name (V27, S8, S7). -/
theorem test_decode_rejects :
    decode [0x8B#8, 0x46#8] = .error (.truncated 0x8B46#16) ∧ decode [0x90#8, 0x90#8] = .error (.unsupported 0x9090#16) ∧
    decode [0x89#8] = .error .shortWindow := by decide
/-- The encoder against V22, V29 and V42: the displacement and the immediate low byte first. -/
theorem test_encode :
    encode (.movM8 1#1 1#1 0#3 1#3 0xDB#8) = [0x8B#8, 0x41#8, 0xDB#8] ∧
    encode (.movM16 0#1 1#1 2#3 6#3 0xFFFE#16) = [0x89#8, 0x96#8, 0xFE#8, 0xFF#8] ∧
    encode (.movIR16 0#3 0x1234#16) = [0xB8#8, 0x34#8, 0x12#8] := by decide
/-- T3: the windows on both sides of each class. -/
theorem test_dispatch_boundaries :
    [0x8800#16, 0x8BFF#16, 0x87FF#16, 0x8C00#16, 0xAFFF#16, 0xB000#16, 0xBFFF#16, 0xC000#16, 0xC5FF#16, 0xC600#16, 0xC7FF#16,
      0xC800#16].map dispatch =
    [some .regMemToFromReg, some .regMemToFromReg, none, none, none, some .immediateToReg, some .immediateToReg, none, none,
      some .immediateToRegMem, some .immediateToRegMem, none] := by decide
/-- T2. -/
theorem test_extract_field :
    extractField 0x89D9#16 9 1 = 0 ∧ extractField 0x89D9#16 6 2 = 3 ∧ extractField 0x89D9#16 3 3 = 3 ∧
    extractField 0xBFFF#16 11 1 = 1 ∧ extractField 0xBFFF#16 8 3 = 7 ∧ extractField 0xFFFF#16 0 16 = 65535 := by decide
/-- opcode_table.json's match words of the rows MOV_RR, MOV_M8 and MOV_IR16, each with zero operand bytes. -/
theorem test_decode_table_word :
    decodeTableWord 16 0x88C0 = some (.movRR 0#1 0#1 0#3 0#3) ∧ decodeTableWord 24 0x8840 = some (.movM8 0#1 0#1 0#3 0#3 0#8) ∧
    decodeTableWord 16 0xB800 = some (.movIR16 0#3 0#16) := by decide
/-- The placed word runs at the next step from reset: B8 00 00 is `mov ax, 0`. -/
theorem test_with_fetch_word :
    (nextOf (step (State.reset.withFetchWord 16 0xB800))).map State.outLog =
      some [⟨.mov, .reg .ax, .imm 0#16, 3⟩] := by decide

/-! ### One step, two tests an instruction -/

/-- V1: d = 0. -/
theorem test_rr_d0 : firstLog [0x89#8, 0xD9#8] = some [⟨.mov, .reg .cx, .reg .bx, 2⟩] := by decide
/-- V8: d = 1. -/
theorem test_rr_d1 : firstLog [0x8B#8, 0xE5#8] = some [⟨.mov, .reg .sp, .reg .bp, 2⟩] := by decide
/-- V11. -/
theorem test_m0a_load : firstLog [0x8A#8, 0x00#8] = some [⟨.mov, .reg .al, .mem ⟨.bxSi, .none⟩, 2⟩] := by decide
/-- V14. -/
theorem test_m0a_store : firstLog [0x88#8, 0x1A#8] = some [⟨.mov, .mem ⟨.bpSi, .none⟩, .reg .bl, 2⟩] := by decide
/-- V12. -/
theorem test_m0b_di : firstLog [0x89#8, 0x05#8] = some [⟨.mov, .mem ⟨.di, .none⟩, .reg .ax, 2⟩] := by decide
/-- V16. -/
theorem test_m0b_si : firstLog [0x88#8, 0x24#8] = some [⟨.mov, .mem ⟨.si, .none⟩, .reg .ah, 2⟩] := by decide
/-- V13. -/
theorem test_m0c_word : firstLog [0x8B#8, 0x0F#8] = some [⟨.mov, .reg .cx, .mem ⟨.bx, .none⟩, 2⟩] := by decide
/-- V17. -/
theorem test_m0c_byte : firstLog [0x8A#8, 0x37#8] = some [⟨.mov, .reg .dh, .mem ⟨.bx, .none⟩, 2⟩] := by decide
/-- V19. -/
theorem test_direct : firstErr [0x8B#8, 0x06#8, 0x00#8, 0x10#8] = some (some ⟨.notImplemented, 0, some 0x8B06#16⟩) := by decide
/-- V21: NotImplemented before TruncatedStream. -/
theorem test_direct_short : firstErr [0x89#8, 0x3E#8, 0x34#8] = some (some ⟨.notImplemented, 0, some 0x893E#16⟩) := by decide
/-- V22 (S3): the sign, -37. -/
theorem test_m8_negative :
    firstLog [0x8B#8, 0x41#8, 0xDB#8] = some [⟨.mov, .reg .ax, .mem ⟨.bxDi, .d8 (-37)⟩, 3⟩] := by decide
/-- V23: `D8 0`, with base BP. -/
theorem test_m8_zero : firstLog [0x88#8, 0x66#8, 0x00#8] = some [⟨.mov, .mem ⟨.bp, .d8 0⟩, .reg .ah, 3⟩] := by decide
/-- V28: low byte first. -/
theorem test_m16_order :
    firstLog [0x8B#8, 0x80#8, 0x34#8, 0x12#8] = some [⟨.mov, .reg .ax, .mem ⟨.bxSi, .d16 4660⟩, 4⟩] := by decide
/-- V33. -/
theorem test_m16_truncated :
    firstErr [0x8B#8, 0x86#8, 0x34#8] = some (some ⟨.truncatedStream, 0, some 0x8B86#16⟩) := by decide
/-- V40: sign-extended, not 200. -/
theorem test_ir8_sign : firstLog [0xB1#8, 0xC8#8] = some [⟨.mov, .reg .cl, .imm (-56), 2⟩] := by decide
/-- V37. -/
theorem test_ir8_max : firstLog [0xB0#8, 0x7F#8] = some [⟨.mov, .reg .al, .imm 127, 2⟩] := by decide
/-- V43. -/
theorem test_ir16_min : firstLog [0xBC#8, 0x00#8, 0x80#8] = some [⟨.mov, .reg .sp, .imm (-32768), 3⟩] := by decide
/-- V46. -/
theorem test_ir16_truncated : firstErr [0xBD#8, 0x01#8] = some (some ⟨.truncatedStream, 0, some 0xBD01#16⟩) := by decide
/-- V47. -/
theorem test_irm : firstErr [0xC6#8, 0x00#8, 0x05#8] = some (some ⟨.notImplemented, 0, some 0xC600#16⟩) := by decide
/-- V48. -/
theorem test_irm_short : firstErr [0xC7#8, 0x06#8] = some (some ⟨.notImplemented, 0, some 0xC706#16⟩) := by decide

/-! ### The step around the instruction -/

/-- P1, its first step: the cursor at 3, still Scanning. -/
theorem test_step_scans_on : firstPos [0xB9#8, 0x03#8, 0x00#8, 0xBB#8, 0x10#8, 0x00#8] = some (3, .scanning) := by decide
/-- V45: Done where the cursor lands on N. -/
theorem test_step_done : firstPos [0xB9#8, 0x0C#8, 0x00#8] = some (3, .done) := by decide
/-- S7. -/
theorem test_step_short_window : firstErr [0x89#8] = some (some ⟨.truncatedStream, 0, none⟩) := by decide
/-- S8. -/
theorem test_step_unsupported : firstErr [0x90#8, 0x90#8] = some (some ⟨.unsupportedOpcode, 0, some 0x9090#16⟩) := by decide
/-- A failing step leaves the cursor and the log (V65). -/
theorem test_step_fails : firstPos [0xFF#8, 0xFF#8] = some (0, .failed) ∧ firstLog [0xFF#8, 0xFF#8] = some [] := by decide
/-- P7's move: reset in the middle of a run. -/
theorem test_reset_in_run :
    ((afterOne [0x89#8, 0xD9#8, 0x88#8, 0xE0#8]).bind (hostMove 16 .assertReset)).map
      (fun s => (s.cursor, s.status, s.err, s.outLog)) = some (0, .scanning, none, []) := by decide
/-- R182. -/
theorem test_empty_stream : (resetState []).status = .done := by decide
/-- ERR_WINDOW holds the window, byte 0 in the high bits (S8). -/
theorem test_err_window : (afterOne [0x90#8, 0x91#8]).map regErrWindow = some 0x9091#16 := by decide
/-- T4: `89 D9` and `8B CB` are the two encodings of one record. -/
theorem test_encode_rr : encodeRR 0#1 .cx .bx = (0x89#8, 0xD9#8) ∧ encodeRR 1#1 .cx .bx = (0x8B#8, 0xCB#8) := by decide

/-! ### Witnesses: for each statement, a state and operands that meet all of its hypotheses -/

/-- A block in Done over `89 D9`, with a record. -/
def doneState : State := { resetState [0x89#8, 0xD9#8] with cursor := 2, status := .done, outLog := [⟨.mov, .reg .cx, .reg .bx, 2⟩] }

/-- A block in Failed over `90 90`. -/
def failedState : State :=
  { resetState [0x90#8, 0x90#8] with status := .failed, err := some ⟨.unsupportedOpcode, 0, some 0x9090#16⟩ }

/-- A block held in reset over the same bytes. -/
def heldState : State := { resetState [0x89#8, 0xD9#8] with resetLine := true }

/-- A block whose cursor stands at 2, before these bytes. -/
def midState (bytes : List Byte) : State :=
  { resetState (0x89#8 :: 0xD9#8 :: bytes) with cursor := 2, outLog := [⟨.mov, .reg .cx, .reg .bx, 2⟩] }

theorem witness_decodeEncodeAgree :
    (Instr.movM0a 1#1 0#1 0#3 3#3).wf = true ∧ (Instr.movM0b 0#1 1#1 0#3 5#3).wf = true ∧
    (Instr.movM16 1#1 1#1 7#3 6#3 0x8000#16).wf = true := by decide
theorem witness_encodeDecodeAgree :
    decode [0x8B#8, 0x41#8, 0xDB#8, 0x90#8] = .ok (.movM8 1#1 1#1 0#3 1#3 0xDB#8, [0x90#8]) := by decide
theorem witness_extractorIsSlice : 15 + 1 ≤ 16 ∧ 0 + 16 ≤ 16 ∧ 8 + 3 ≤ 16 := by decide
theorem witness_dispatchOrderIrrelevant :
    (∃ c ∈ classTab, classMatches 0xC7FF#16 c = true) ∧ classTab.reverse.Perm classTab :=
  ⟨by decide, List.reverse_perm classTab⟩
theorem witness_decoderFollowsTable : ∃ r ∈ formTab, rowMatches 0x8806#16 r = true := by decide
theorem witness_lengthFromWindow :
    0x8B41#16 &&& 0xFC00#16 = 0x8800#16 ∧ 0xBFFF#16 &&& 0xF000#16 = 0xB000#16 ∧
    (0x8C00#16 &&& 0xFC00#16 ≠ 0x8800#16 ∧ 0x8C00#16 &&& 0xF000#16 ≠ 0xB000#16) ∧
    (decode [0x8B#8, 0x80#8, 0x34#8, 0x12#8] = .ok (.movM16 1#1 1#1 0#3 0#3 0x1234#16, []) ∧
      (Instr.movM16 1#1 1#1 0#3 0#3 0x1234#16).form ≠ .direct ∧ (Instr.movM16 1#1 1#1 0#3 0#3 0x1234#16).form ≠ .irm) := by
  decide
theorem witness_wideningIsBijective : regOf 7#3 1#1 = regOf 7#3 1#1 := by decide
theorem witness_movRRResult :
    bytePair 0x89#8 0xFF#8 &&& 0xFCC0#16 = 0x88C0#16 ∧ 2 ≤ (resetState [0x89#8, 0xD9#8]).avail := by decide
theorem witness_movNoDisplacementResult :
    (bytePair 0x8B#8 0x3F#8 &&& 0xFCC0#16 = 0x8800#16 ∧ rmRm (bytePair 0x8B#8 0x3F#8) ≠ 6#3) ∧
    (bytePair 0x8B#8 0x05#8 &&& 0xFCC0#16 = 0x8800#16 ∧ rmRm (bytePair 0x8B#8 0x05#8) ≠ 6#3) ∧
    ((3#3 : BitVec 3).toNat ≤ 3 ∧ 2 ≤ (resetState [0x8B#8, 0x3B#8]).avail) ∧
    (((4#3 : BitVec 3).toNat = 4 ∨ (4#3 : BitVec 3).toNat = 5) ∧ 2 ≤ (resetState [0x88#8, 0x24#8]).avail) ∧
    (((5#3 : BitVec 3).toNat = 4 ∨ (5#3 : BitVec 3).toNat = 5) ∧ 2 ≤ (resetState [0x89#8, 0x05#8]).avail) ∧
    2 ≤ (resetState [0x8B#8, 0x0F#8]).avail := by decide
theorem witness_movDirectFails :
    (resetState [0x88#8, 0x06#8]).enabled ∧ 2 ≤ (resetState [0x88#8, 0x06#8]).avail ∧
    windowAt (resetState [0x88#8, 0x06#8]) (resetState [0x88#8, 0x06#8]).cursor &&& 0xFCC7#16 = 0x8806#16 := by decide
theorem witness_movDisplacement8Result :
    bytePair 0x89#8 0x7F#8 &&& 0xFCC0#16 = 0x8840#16 ∧ 3 ≤ (resetState [0x8B#8, 0x41#8, 0xDB#8]).avail ∧
    ((resetState [0x8B#8, 0x46#8]).enabled ∧ (resetState [0x8B#8, 0x46#8]).avail = 2 ∧
      windowAt (resetState [0x8B#8, 0x46#8]) (resetState [0x8B#8, 0x46#8]).cursor &&& 0xFCC0#16 = 0x8840#16) := by decide
theorem witness_movDisplacement16Result :
    bytePair 0x8B#8 0xBF#8 &&& 0xFCC0#16 = 0x8880#16 ∧ 4 ≤ (resetState [0x8B#8, 0x80#8, 0x34#8, 0x12#8]).avail ∧
    ((resetState [0x8B#8, 0x86#8]).enabled ∧ 2 ≤ (resetState [0x8B#8, 0x86#8]).avail ∧
      (resetState [0x8B#8, 0x86#8]).avail < 4 ∧
      windowAt (resetState [0x8B#8, 0x86#8]) (resetState [0x8B#8, 0x86#8]).cursor &&& 0xFCC0#16 = 0x8880#16) ∧
    ((resetState [0x8B#8, 0x86#8, 0x34#8]).enabled ∧ (resetState [0x8B#8, 0x86#8, 0x34#8]).avail = 3 ∧
      windowAt (resetState [0x8B#8, 0x86#8, 0x34#8]) (resetState [0x8B#8, 0x86#8, 0x34#8]).cursor &&& 0xFCC0#16 = 0x8880#16) := by
  decide
theorem witness_movImmediate8Result :
    bytePair 0xB7#8 0xFF#8 &&& 0xF800#16 = 0xB000#16 ∧ 2 ≤ (resetState [0xB7#8, 0xFF#8]).avail := by decide
theorem witness_movImmediate16Result :
    bytePair 0xB8#8 0xFF#8 &&& 0xF800#16 = 0xB800#16 ∧ 3 ≤ (resetState [0xBB#8, 0xFF#8, 0xFF#8]).avail ∧
    ((resetState [0xBD#8, 0x01#8]).enabled ∧ (resetState [0xBD#8, 0x01#8]).avail = 2 ∧
      windowAt (resetState [0xBD#8, 0x01#8]) (resetState [0xBD#8, 0x01#8]).cursor &&& 0xF800#16 = 0xB800#16) := by decide
theorem witness_movImmediateToMemoryFails :
    (resetState [0xC7#8, 0xFF#8]).enabled ∧ 2 ≤ (resetState [0xC7#8, 0xFF#8]).avail ∧
    windowAt (resetState [0xC7#8, 0xFF#8]) (resetState [0xC7#8, 0xFF#8]).cursor &&& 0xFE00#16 = 0xC600#16 := by decide
theorem witness_immediateClassCovered :
    ((resetState [0xB7#8, 0x00#8]).enabled ∧ 7 < 16 ∧
      (streamAt (resetState [0xB7#8, 0x00#8]) (resetState [0xB7#8, 0x00#8]).cursor).toNat = 0xB0 + 7 ∧
      (if 7 < 8 then 2 else 3) ≤ (resetState [0xB7#8, 0x00#8]).avail) ∧
    ((resetState [0xB8#8, 0x00#8, 0x00#8]).enabled ∧ 8 < 16 ∧
      (streamAt (resetState [0xB8#8, 0x00#8, 0x00#8]) (resetState [0xB8#8, 0x00#8, 0x00#8]).cursor).toNat = 0xB0 + 8 ∧
      (if 8 < 8 then 2 else 3) ≤ (resetState [0xB8#8, 0x00#8, 0x00#8]).avail) := by decide
/-- One state for each clause: mod = 01 with 3 bytes, mod = 10 with 4, mod = 11 and mod = 00 with 2. -/
theorem witness_lengthByMod :
    ([[0x8B#8, 0x41#8, 0xDB#8], [0x8B#8, 0x80#8, 0x34#8, 0x12#8], [0x89#8, 0xD9#8], [0x8A#8, 0x00#8]].map fun b =>
      (decide ((resetState b).enabled ∧ 2 ≤ (resetState b).avail ∧
        windowAt (resetState b) (resetState b).cursor &&& 0xFC00#16 = 0x8800#16),
       rmMod (windowAt (resetState b) (resetState b).cursor), (resetState b).avail)) =
    [(true, 1#2, 3), (true, 2#2, 4), (true, 3#2, 2), (true, 0#2, 2)] ∧
    rmRm (windowAt (resetState [0x8A#8, 0x00#8]) 0) ≠ 6#3 := by decide
theorem witness_registerModeRoundTrip :
    (resetState [0x89#8, 0xD9#8]).enabled ∧ 2 ≤ (resetState [0x89#8, 0xD9#8]).avail ∧
    windowAt (resetState [0x89#8, 0xD9#8]) (resetState [0x89#8, 0xD9#8]).cursor &&& 0xFCC0#16 = 0x88C0#16 := by decide
/-- A next state that is no failure, and one that is. -/
theorem witness_instructionFrame :
    (∃ t, exec (.movRR 0#1 1#1 3#3 1#3) (resetState [0x89#8, 0xD9#8]) = .next t ∧ t.status ≠ .failed) ∧
    ∃ t, exec (.movIRM 0#1 0#8) (resetState [0xC6#8, 0x00#8]) = .next t ∧ t.status = .failed :=
  ⟨⟨_, rfl, by decide⟩, _, rfl, by decide⟩
theorem witness_stepRunsDecodedInstruction :
    (midState [0x8B#8, 0x41#8, 0xDB#8]).enabled ∧
    decode (midState [0x8B#8, 0x41#8, 0xDB#8]).remaining = .ok (.movM8 1#1 1#1 0#3 1#3 0xDB#8, []) := by decide
theorem witness_stepIsSpecStep : (midState [0x90#8]).enabled := by decide
/-- The first lands on `N`, the second does not. -/
theorem witness_emitAndAdvance :
    (∃ t, (midState [0xB1#8, 0x0C#8]).enabled ∧ step (midState [0xB1#8, 0x0C#8]) = .next t ∧ t.status ≠ .failed) ∧
    ∃ t, (midState [0xB1#8, 0x0C#8, 0x90#8]).enabled ∧ step (midState [0xB1#8, 0x0C#8, 0x90#8]) = .next t ∧
      t.status ≠ .failed :=
  ⟨⟨_, by decide, rfl, by decide⟩, _, by decide, rfl, by decide⟩
theorem witness_failingStepWritesErrOnly :
    ∃ t, (midState [0x90#8, 0x90#8]).enabled ∧ step (midState [0x90#8, 0x90#8]) = .next t ∧ t.status = .failed :=
  ⟨_, by decide, rfl, by decide⟩
theorem witness_unsupportedOpcodeFails :
    (midState [0x90#8, 0x90#8]).enabled ∧ 2 ≤ (midState [0x90#8, 0x90#8]).avail ∧
    ∀ c ∈ classTab, classMatches (windowAt (midState [0x90#8, 0x90#8]) (midState [0x90#8, 0x90#8]).cursor) c = false := by
  decide
/-- Both causes. -/
theorem witness_notImplementedCauses :
    ((midState [0xC6#8, 0x00#8]).enabled ∧ 2 ≤ (midState [0xC6#8, 0x00#8]).avail ∧
      dispatch (windowAt (midState [0xC6#8, 0x00#8]) (midState [0xC6#8, 0x00#8]).cursor) = some .immediateToRegMem) ∧
    ((midState [0x8B#8, 0x06#8]).enabled ∧ 2 ≤ (midState [0x8B#8, 0x06#8]).avail ∧
      dispatch (windowAt (midState [0x8B#8, 0x06#8]) (midState [0x8B#8, 0x06#8]).cursor) = some .regMemToFromReg ∧
      rmMod (windowAt (midState [0x8B#8, 0x06#8]) (midState [0x8B#8, 0x06#8]).cursor) = 0#2 ∧
      rmRm (windowAt (midState [0x8B#8, 0x06#8]) (midState [0x8B#8, 0x06#8]).cursor) = 6#3) := by decide
/-- One byte left; and three of four. -/
theorem witness_truncatedStreamCauses :
    ((midState [0x89#8]).enabled ∧ (midState [0x89#8]).avail = 1) ∧
    ((midState [0x8B#8, 0x86#8, 0x34#8]).enabled ∧ 2 ≤ (midState [0x8B#8, 0x86#8, 0x34#8]).avail ∧
      noDecode (windowAt (midState [0x8B#8, 0x86#8, 0x34#8]) (midState [0x8B#8, 0x86#8, 0x34#8]).cursor) = false ∧
      lengthOf (windowAt (midState [0x8B#8, 0x86#8, 0x34#8]) (midState [0x8B#8, 0x86#8, 0x34#8]).cursor) = some 4 ∧
      (midState [0x8B#8, 0x86#8, 0x34#8]).avail < 4) := by decide
/-- One enabled state for each branch, in order: what stays of the stream, what the class is, whether it has a decode, and
its length. -/
theorem witness_failurePrecedence :
    ([[0x89#8], [0xF4#8, 0x00#8], [0x89#8, 0x3E#8], [0xBD#8, 0x01#8], [0xBD#8, 0x01#8, 0x00#8]].map fun b =>
      (decide (resetState b).enabled, (resetState b).avail, dispatch (windowAt (resetState b) 0),
       noDecode (windowAt (resetState b) 0), lengthOf (windowAt (resetState b) 0))) =
    [(true, 1, some .regMemToFromReg, false, some 2), (true, 2, none, false, none),
     (true, 2, some .regMemToFromReg, true, some 2), (true, 2, some .immediateToReg, false, some 3),
     (true, 3, some .immediateToReg, false, some 3)] := by decide
/-- One stream for each of the seven cases, and last one that fails in none. -/
theorem witness_failsExactlyOutsideSubset :
    [[0x89#8], [0x90#8, 0x90#8], [0xC6#8, 0x00#8], [0x88#8, 0x06#8], [0x8B#8, 0x46#8], [0x8B#8, 0x86#8, 0x34#8],
      [0xBD#8, 0x01#8], [0x89#8, 0xD9#8]].map (fun b =>
        (decide (resetState b).enabled, (nextOf (step (resetState b))).map fun t => decide (t.status = .failed))) =
    [(true, some true), (true, some true), (true, some true), (true, some true), (true, some true), (true, some true),
     (true, some true), (true, some false)] := by decide
theorem witness_noReadOutsideStream :
    (resetState [0x89#8]).streamLen ≤ 1 ∧ ((resetState [0x89#8]).enabled ∧ (resetState [0x89#8]).avail < 2) ∧
    ((resetState [0xBD#8, 0x01#8]).enabled ∧
      noDecode (windowAt (resetState [0xBD#8, 0x01#8]) (resetState [0xBD#8, 0x01#8]).cursor) = false ∧
      lengthOf (windowAt (resetState [0xBD#8, 0x01#8]) (resetState [0xBD#8, 0x01#8]).cursor) = some 3 ∧
      (resetState [0xBD#8, 0x01#8]).avail < 3) := by decide
theorem witness_streamNeverWritten : ∃ t, runSteps 2 (resetState [0xB1#8, 0x0C#8, 0x90#8, 0x90#8]) = .next t := ⟨_, rfl⟩
/-- Two blocks with different cursors, logs and streams that agree on the instruction's bytes. -/
theorem witness_decodeDependsOnOwnBytes :
    ((resetState [0xB1#8, 0x0C#8, 0x90#8, 0x90#8, 0x01#8]).enabled ∧ (midState [0xB1#8, 0x0C#8, 0x90#8, 0x90#8]).enabled ∧
      (resetState [0xB1#8, 0x0C#8, 0x90#8, 0x90#8, 0x01#8]).remaining.take 4 =
        (midState [0xB1#8, 0x0C#8, 0x90#8, 0x90#8]).remaining.take 4) ∧
    ((resetState [0xB1#8, 0x0C#8]).enabled ∧ (midState [0xB1#8, 0x0C#8, 0x90#8]).enabled ∧
      step (resetState [0xB1#8, 0x0C#8]) = .next (emitted (resetState [0xB1#8, 0x0C#8]) (.reg .cl) (.imm 12) 2) ∧
      (midState [0xB1#8, 0x0C#8, 0x90#8]).remaining.take 2 = (resetState [0xB1#8, 0x0C#8]).remaining.take 2) :=
  ⟨by decide, by decide, by decide, rfl, by decide⟩
/-- In each terminal status, with a host move that is a move. -/
theorem witness_terminalStatesAreQuiescent :
    (doneState.resetLine = false ∧ doneState.status = .done ∧ HostMove.deassertReset ≠ .assertReset ∧
      (hostMove 16 .deassertReset doneState).isSome = true) ∧
    (failedState.resetLine = false ∧ failedState.status = .failed ∧ (hostMove 16 .deassertReset failedState).isSome = true) := by
  decide
theorem witness_resetHoldsResetValues : heldState.resetLine = true := by decide
theorem witness_loadedStreamReadsAsBytes : 1 < [0x89#8, 0xD9#8].length := by decide
/-- A move outside reset; a load refused for want of reset; and loads in reset at and above the bound of `CURSOR_W` = 1. -/
theorem witness_hostWritesOnlyInReset :
    (doneState.resetLine = false ∧ (hostMove 16 .assertReset doneState).isSome = true) ∧
    (heldState.resetLine = true ∧ [0x89#8].length ≤ 2 ^ 1 - 1 ∧ ¬ [0x89#8, 0xD9#8].length ≤ 2 ^ 1 - 1) := by decide
/-- A load in reset at the bound of `CURSOR_W` = 1, and of nothing at `CURSOR_W` = 0; the last clause's bound alone. -/
theorem witness_hostStartsRun :
    (heldState.resetLine = true ∧ [0x89#8].length ≤ 2 ^ 1 - 1) ∧ (heldState.resetLine = true ∧ ([] : List Byte).length ≤ 2 ^ 0 - 1) ∧
    [0x89#8, 0xD9#8, 0x90#8].length ≤ 2 ^ 2 - 1 := by decide
/-- No failure; and a failure of each kind, with and without a window. -/
theorem witness_hostRegisterMap :
    doneState.err = none ∧ failedState.err = some ⟨.unsupportedOpcode, 0, some 0x9090#16⟩ ∧
    firstErr [0xC6#8, 0x00#8] = some (some ⟨.notImplemented, 0, some 0xC600#16⟩) ∧
    firstErr [0x89#8] = some (some ⟨.truncatedStream, 0, none⟩) := by decide
/-- A run that loads `90 90` over reset, starts, and fails. -/
theorem witness_reachable : Reachable 2 failedState := by
  refine .byStep (s := resetState [0x90#8, 0x90#8]) ?_ rfl
  refine .byHost .deassertReset (s := { resetState [0x90#8, 0x90#8] with resetLine := true }) ?_ rfl
  refine .byHost (.load [0x90#8, 0x90#8]) (s := { State.reset with resetLine := true }) ?_ rfl
  exact .byHost .assertReset .atReset rfl
theorem witness_cellListCanonical :
    Memory.wf [(0, 0x89#8), (1, 0xD9#8)] 2 ∧ Memory.wf (Memory.ofBytes [0x89#8, 0xD9#8]) 2 ∧
    ∀ a < 2, Memory.read [(0, 0x89#8), (1, 0xD9#8)] a = (Memory.ofBytes [0x89#8, 0xD9#8]).read a := by decide
theorem witness_placedWordRunsNext :
    doneState.stream.wf doneState.streamLen ∧ decodeTableWord 16 0xB800 = some (.movIR16 0#3 0#16) := by decide
theorem failedState_inv : failedState.Inv where
  memory := by decide
  cursorInStream := by decide
  cursorIsLogLength := by decide
  doneAtEnd := by decide
  scanningInside := by decide
  failedInside := fun _ => ⟨by decide, .unsupportedOpcode, by decide⟩
  recordsWf := by decide
  heldInReset := by decide
theorem heldState_inv : heldState.Inv where
  memory := by decide
  cursorInStream := by decide
  cursorIsLogLength := by decide
  doneAtEnd := by decide
  scanningInside := by decide
  failedInside := fun h => absurd h (by decide)
  recordsWf := by decide
  heldInReset := by decide
theorem midState_inv : (midState [0xB1#8, 0x0C#8]).Inv where
  memory := by decide
  cursorInStream := by decide
  cursorIsLogLength := by decide
  doneAtEnd := by decide
  scanningInside := by decide
  failedInside := fun h => absurd h (by decide)
  recordsWf := by decide
  heldInReset := by decide
/-- A state in the middle of a run; and one that has failed. -/
theorem witness_invKeptByStep :
    (∃ t, (midState [0xB1#8, 0x0C#8]).Inv ∧ step (midState [0xB1#8, 0x0C#8]) = .next t) ∧
    ∃ t, failedState.Inv ∧ step failedState = .next t :=
  ⟨⟨_, midState_inv, rfl⟩, _, failedState_inv, rfl⟩
/-- Every move: a start from a failed state, a reset out of it, and a load in reset. -/
theorem witness_invKeptByHost :
    (∃ t, failedState.Inv ∧ hostMove 16 .deassertReset failedState = some t) ∧
    (∃ t, failedState.Inv ∧ hostMove 16 .assertReset failedState = some t) ∧
    ∃ t, heldState.Inv ∧ hostMove 16 (.load [0x90#8]) heldState = some t :=
  ⟨⟨_, failedState_inv, rfl⟩, ⟨_, failedState_inv, rfl⟩, _, heldState_inv, rfl⟩
theorem witness_logOnlyGrows :
    ∃ t, (midState [0xB1#8, 0x0C#8]).resetLine = false ∧ runSteps 2 (midState [0xB1#8, 0x0C#8]) = .next t :=
  ⟨_, by decide, rfl⟩
theorem midState_precise : (midState [0xB1#8, 0x0C#8]).Precise := ⟨⟨by decide, rfl⟩, fun h => absurd h (by decide)⟩
theorem failedState_precise : failedState.Precise := ⟨rfl, fun _ => ⟨_, rfl, by decide⟩⟩
theorem witness_logIsDecodeKeptByStep :
    (∃ t, (midState [0xB1#8, 0x0C#8]).Precise ∧ step (midState [0xB1#8, 0x0C#8]) = .next t) ∧
    ∃ t, failedState.Precise ∧ step failedState = .next t :=
  ⟨⟨_, midState_precise, rfl⟩, _, failedState_precise, rfl⟩

end Sys2Proof.Tests
end

section
/-! PROOFS. The block never writes the input stream (20_memory.md R51). -/

namespace Sys2Proof.Machine

/-- The next states of a step, with their guards: held in reset, at rest, a failure entered, or a record emitted. -/
theorem step_next_cases {s t : State} (h : step s = .next t) :
    (s.resetLine = true ∧ t = s.holdReset) ∨
    (s.resetLine = false ∧ s.status ≠ .scanning ∧ t = s) ∨
    (s.enabled ∧ ∃ kind window, t = s.enterFailure kind window) ∨
    (s.enabled ∧ ∃ rec : Record, recordWf rec = true ∧ 2 ≤ rec.len ∧ rec.len ≤ 4 ∧ rec.len ≤ s.avail ∧
      t = s.emitAdvance rec) := by
  rcases step_cases s with ⟨hr, hs⟩ | ⟨hr, hst, hs⟩ | ⟨hen, ⟨kind, window, hs⟩ | ⟨rec, hwf, h2, h4, hfit, hs⟩⟩ <;>
    obtain rfl := Host.Outcome.next.inj (h.symm.trans hs)
  · exact .inl ⟨hr, rfl⟩
  · exact .inr (.inl ⟨hr, hst, rfl⟩)
  · exact .inr (.inr (.inl ⟨hen, kind, window, rfl⟩))
  · exact .inr (.inr (.inr ⟨hen, rec, hwf, h2, h4, hfit, rfl⟩))

/-- A run of `k + 1` steps is one step and a run of `k`. -/
theorem runSteps_succ_next {k : Nat} {s u : State} (h : runSteps (k + 1) s = .next u) :
    ∃ t, step s = .next t ∧ runSteps k t = .next u := by
  rw [runSteps] at h
  split at h
  · next t ht => exact ⟨t, ht, h⟩
  · cases h
  · cases h

/-- A reflexive and transitive relation that every step keeps holds between the two ends of every run. -/
theorem runSteps_related {R : State → State → Prop} (refl : ∀ s, R s s)
    (trans : ∀ {s t u}, R s t → R t u → R s u) (ofStep : ∀ {s t}, step s = .next t → R s t) {k : Nat} {s t : State}
    (h : runSteps k s = .next t) : R s t := by
  induction k generalizing s with
  | zero => obtain rfl := Host.Outcome.next.inj h; exact refl s
  | succ k ih =>
    obtain ⟨u, hstep, hrun⟩ := runSteps_succ_next h
    exact trans (ofStep hstep) (ih hrun)

/-- Two states with the same stream and the same `N`. -/
def SameInput (s t : State) : Prop := t.stream = s.stream ∧ t.streamLen = s.streamLen

theorem SameInput.refl (s : State) : SameInput s s := ⟨rfl, rfl⟩

theorem SameInput.trans {s t u : State} : SameInput s t → SameInput t u → SameInput s u
  | ⟨hst, hstN⟩, ⟨htu, htuN⟩ => ⟨htu.trans hst, htuN.trans hstN⟩

/-- A read depends on the stream and `N` alone. -/
theorem SameInput.memRead_eq {s t : State} (h : SameInput s t) (a : Nat) : memRead t a = memRead s a := by
  obtain ⟨hstream, hN⟩ := h
  rw [memRead, memRead, hstream, hN]

/-- One step leaves the stream and `N` as they were. -/
theorem step_sameInput {s t : State} (h : step s = .next t) : SameInput s t := by
  rcases step_next_cases h with ⟨-, rfl⟩ | ⟨-, -, rfl⟩ | ⟨-, kind, window, rfl⟩ | ⟨-, rec, -, -, -, -, rfl⟩
  · exact ⟨holdReset_stream s, holdReset_streamLen s⟩
  · exact SameInput.refl _
  · exact ⟨enterFailure_stream s kind window, enterFailure_streamLen s kind window⟩
  · exact ⟨emitAdvance_stream s rec, emitAdvance_streamLen s rec⟩

/-- Any number of steps leaves the stream and `N` as they were. -/
theorem runSteps_sameInput {k : Nat} {s t : State} (h : runSteps k s = .next t) : SameInput s t :=
  runSteps_related SameInput.refl SameInput.trans step_sameInput h

/-- Settles O37: each step keeps the stream and `N`, so every run does, and a read depends on these alone. -/
theorem streamNeverWritten : Obligations.StreamNeverWritten := by
  intro k s t h
  have input : SameInput s t := runSteps_sameInput h
  have ⟨hstream, hN⟩ := input
  exact ⟨hstream, hN, input.memRead_eq⟩

end Sys2Proof.Machine
end

section
/-! PROOFS. The length of an instruction is known from its window (30_encoding.md R83). -/

namespace Sys2Proof

variable {W : Word} {n : Nat} {i : Instr} {b0 b1 : Byte} {rest r : List Byte}

/-! The classes with a length, by their mask and pattern (R75). -/

theorem dispatch_regMem_iff_mask : dispatch W = some .regMemToFromReg ↔ W &&& 0xFC00#16 = 0x8800#16 := by
  rw [dispatch_regMem, ← decide_eq_true_iff (p := W.toNat / 1024 = 34), ← match_regMem]
  exact beq_iff_eq

theorem dispatch_immReg_iff_mask : dispatch W = some .immediateToReg ↔ W &&& 0xF000#16 = 0xB000#16 := by
  rw [dispatch_immReg, ← decide_eq_true_iff (p := W.toNat / 4096 = 11), ← match_immReg]
  exact beq_iff_eq

/-! `lengthOf`, class by class. -/

theorem lengthOf_regMem (h : dispatch W = some .regMemToFromReg) : lengthOf W = some (2 + regMemExtra (rmMod W)) := by
  simp only [lengthOf, h]

theorem lengthOf_immReg (h : dispatch W = some .immediateToReg) : lengthOf W = some (2 + (irW W).toNat) := by
  simp only [lengthOf, h]

theorem lengthOf_none (hrm : dispatch W ≠ some .regMemToFromReg) (hir : dispatch W ≠ some .immediateToReg) :
    lengthOf W = none := by
  cases hd : dispatch W with
  | none => simp only [lengthOf, hd]
  | some c =>
    cases c with
    | regMemToFromReg => exact absurd hd hrm
    | immediateToRegMem => simp only [lengthOf, hd]
    | immediateToReg => exact absurd hd hir

theorem regMemExtra_le_two (mod : BitVec 2) : regMemExtra mod ≤ 2 := by
  rcases mod_cases mod with rfl | rfl | rfl | rfl <;> decide

/-! What a decode consumes. -/

/-- An answer of a decoder leaves all but the `n - 2` bytes after the window. -/
theorem DecodesFrom.length_eq {answer : List Byte → Except DecodeError (Instr × List Byte)}
    (h : DecodesFrom W rest n answer) (hok : answer rest = .ok (i, r)) : rest.length = n - 2 + r.length := by
  rcases h with ⟨-, herr⟩ | ⟨hle, j, hdrop, -⟩
  · cases herr.symm.trans hok
  · cases hdrop.symm.trans hok
    rw [List.length_drop]; omega

/-- A decoded instruction takes exactly the bytes its window needs. -/
theorem decode_length_eq (hn : bytesNeeded (bytePair b0 b1) = some n) (hok : decode (b0 :: b1 :: rest) = .ok (i, r)) :
    (b0 :: b1 :: rest).length = n + r.length := by
  have htail : rest.length = n - 2 + r.length := (decode_from rest hn).length_eq hok
  have h2 : 2 ≤ n := two_le_bytesNeeded hn
  simp only [List.length_cons]; omega

/-- The direct form is no exception: its window has the length 2 that the decoder takes (log entry 12). -/
theorem decode_takes_lengthOf (hok : decode (b0 :: b1 :: rest) = .ok (i, r)) (hirm : i.form ≠ .irm) :
    ∃ n, lengthOf (bytePair b0 b1) = some n ∧ 2 ≤ n ∧ n ≤ 4 ∧ (b0 :: b1 :: rest).length = n + r.length := by
  cases hd : dispatch (bytePair b0 b1) with
  | none => cases (decode_noClass hd).symm.trans hok
  | some c =>
    cases c with
    | regMemToFromReg =>
      have hextra := regMemExtra_le_two (rmMod (bytePair b0 b1))
      exact ⟨_, lengthOf_regMem hd, by omega, by omega, decode_length_eq (bytesNeeded_regMem hd) hok⟩
    | immediateToRegMem =>
      cases (decode_immRegMem hd).symm.trans hok
      exact absurd rfl hirm
    | immediateToReg =>
      have hw := (irW (bytePair b0 b1)).isLt
      exact ⟨_, lengthOf_immReg hd, by omega, by omega, decode_length_eq (bytesNeeded_immReg hd) hok⟩

/-- Settles O9: the masks are the classes of `dispatch`, which give `lengthOf`, and a decode consumes what its window
needs. -/
theorem lengthFromWindow : Obligations.LengthFromWindow := by
  refine ⟨fun W h => ?_, fun W h => ?_, fun W hrm hir => ?_, fun b0 b1 rest r i hok _ hirm => ?_⟩
  · exact lengthOf_regMem (dispatch_regMem_iff_mask.mpr h)
  · exact lengthOf_immReg (dispatch_immReg_iff_mask.mpr h)
  · exact lengthOf_none (mt dispatch_regMem_iff_mask.mp hrm) (mt dispatch_immReg_iff_mask.mp hir)
  · exact decode_takes_lengthOf hok hirm

end Sys2Proof
end

section
/-! PROOFS. The bit-field extractor is a slice (30_encoding.md R71). -/

namespace Sys2Proof

/-- The extractor in arithmetic. -/
theorem extractField_eq (word : Word) (start width : Nat) :
    extractField word start width = word.toNat / 2 ^ start % 2 ^ width := by
  rw [extractField, BitVec.toNat_ushiftRight, Nat.one_shiftLeft, Nat.and_two_pow_sub_one_eq_mod,
    Nat.shiftRight_eq_div_pow]

/-- The extractor is the slice of `width` bits at `start`. A slice past bit 15 reads zeros there, as the shift does. -/
theorem extractField_eq_extractLsb' (word : Word) (start width : Nat) :
    extractField word start width = (word.extractLsb' start width).toNat := by
  rw [extractField_eq, BitVec.extractLsb'_toNat, Nat.shiftRight_eq_div_pow]

/-- Settles O4: the formula is the definition with the shift taken on numbers, and the slice is its value. -/
theorem extractorIsSlice : Obligations.ExtractorIsSlice := by
  intro word start width _
  constructor
  · rw [extractField, BitVec.toNat_ushiftRight]
  · exact extractField_eq_extractLsb' word start width

end Sys2Proof
end

section
/-! PROOFS. A displacement is the two's-complement reading of its bytes (40_operand_resolver.md R105, R106). -/

namespace Sys2Proof.Machine

/-- The sign extension of a byte, by its sign bit (R105). -/
theorem sext16_toInt (b : Byte) :
    (sext16 b).toInt = if b.toNat ≤ 0x7F then (b.toNat : Int) else (b.toNat : Int) - 256 := by
  have keepsValue : (sext16 b).toInt = b.toInt := BitVec.toInt_signExtend_of_le (by decide)
  rw [keepsValue, BitVec.toInt_eq_toNat_cond]
  split <;> split <;> omega

/-- The signed reading of a word, by its sign bit (R106). -/
theorem signed16_toInt (u : Word) :
    (signed16 u).toInt = if u.toNat < 0x8000 then (u.toNat : Int) else (u.toNat : Int) - 0x10000 := by
  rw [signed16, BitVec.toInt_eq_toNat_cond]
  split <;> split <;> omega

/-- Settles O12: the displacement is `D16` of the pattern's signed reading, and the pattern is
`byte3 * 256 + byte2`. -/
theorem displacement16IsSigned : Obligations.Displacement16IsSigned := by
  refine ⟨fun byte2 byte3 => ⟨signed16 (bytePair byte3 byte2), rfl, ?_⟩, by decide⟩
  rw [signed16_toInt, bytePair_toNat]

/-- Settles O11: the displacement is `D8` of the byte's sign extension. -/
theorem displacement8SignExtends : Obligations.Displacement8SignExtends :=
  ⟨fun b => ⟨sext16 b, rfl, sext16_toInt b⟩, by decide⟩

end Sys2Proof.Machine
end

section
/-! PROOFS. Register widening is a bijection (40_operand_resolver.md R101). -/

namespace Sys2Proof.Machine

/-- The names of width bit 0. -/
theorem mem_names8_of_regWidth {r : Reg} (h : regWidth r = 0#1) :
    r ∈ [Reg.al, .cl, .dl, .bl, .ah, .ch, .dh, .bh] := by
  revert h; cases r <;> decide

/-- The names of width bit 1. -/
theorem mem_names16_of_regWidth {r : Reg} (h : regWidth r = 1#1) :
    r ∈ [Reg.ax, .cx, .dx, .bx, .sp, .bp, .si, .di] := by
  revert h; cases r <;> decide

/-- A register name determines the field and the width bit: `regIx` and `regWidth` read them back. -/
theorem regOf_injective {f f' : BitVec 3} {w w' : BitVec 1} (h : regOf f w = regOf f' w') : f = f' ∧ w = w' := by
  constructor
  · simpa using congrArg regIx h
  · simpa using congrArg regWidth h

/-- Settles O10: `regIx` and `regWidth` together are the inverse of `regOf`, and the width bit picks the names. -/
theorem wideningIsBijective : Obligations.WideningIsBijective := by
  refine ⟨fun f f' w w' => regOf_injective, fun r => ⟨regIx r, regWidth r, regOf_regIx r⟩, fun f => ?_, fun f => ?_⟩
  · exact mem_names8_of_regWidth (regWidth_regOf f 0#1)
  · exact mem_names16_of_regWidth (regWidth_regOf f 1#1)

end Sys2Proof.Machine
end

section
/-! PROOFS. A row of RegMemToFromReg is the class with `mod` fixed (30_encoding.md R79). -/

namespace Sys2Proof

/-- A field is the slice of its bits. -/
theorem fieldAt_eq_extractLsb' (W : Word) (start width : Nat) : fieldAt W start width = W.extractLsb' start width := by
  apply BitVec.eq_of_toNat_eq
  rw [fieldAt_toNat, BitVec.extractLsb'_toNat, Nat.shiftRight_eq_div_pow]

/-- A field of a masked window is the field under the mask's own bits there. -/
theorem fieldAt_and (W mask : Word) (start width : Nat) :
    fieldAt (W &&& mask) start width = fieldAt W start width &&& fieldAt mask start width := by
  simp only [fieldAt_eq_extractLsb', BitVec.extractLsb'_and]

/-- A mask that covers `mod` keeps it. -/
theorem rmMod_and {mask : Word} (W : Word) (h : rmMod mask = BitVec.allOnes 2) : rmMod (W &&& mask) = rmMod W := by
  rw [rmMod, fieldAt_and, ← rmMod, ← rmMod, h, BitVec.and_allOnes]

/-- The pattern of a RegMemToFromReg row fixes the class and `mod`. -/
theorem regMem_of_mask {W : Word} {mod : BitVec 2} (h : W &&& 0xFCC0#16 = rmWindow 0#1 0#1 mod 0#3 0#3) :
    dispatch W = some .regMemToFromReg ∧ rmMod W = mod := by
  constructor
  · have classBits : W &&& 0xFC00#16 = rmWindow 0#1 0#1 mod 0#3 0#3 &&& 0xFC00#16 := by
      rw [← h, BitVec.and_assoc]; rfl
    rw [dispatch_regMem_iff_mask, classBits, ← dispatch_regMem_iff_mask]
    exact dispatch_rmWindow 0#1 0#1 mod 0#3 0#3
  · rw [← rmMod_and W (mask := 0xFCC0#16) (by decide), h, rmMod_rmWindow]

end Sys2Proof
end

section
/-! PROOFS. The step of an enabled block, by what the decoder answers (44_stream_advance.md R174, R175, R177). -/

namespace Sys2Proof.Machine

variable {s : State}

/-- The bytes that remain, one at a time. -/
theorem remaining_drop {k : Nat} (h : k < s.avail) :
    s.remaining.drop k = streamAt s (s.cursor + k) :: s.remaining.drop (k + 1) := by
  rw [List.drop_eq_getElem_cons (by simpa [State.remaining] using h)]
  simp [State.remaining]

/-- The decoder over the bytes that remain, for a window of the class. -/
theorem decode_remaining_regMem (h2 : 2 ≤ s.avail) (hd : dispatch (windowAt s s.cursor) = some .regMemToFromReg) :
    decode s.remaining = decodeRegMem (windowAt s s.cursor) (s.remaining.drop 2) := by
  rw [remaining_cons h2]; exact decode_regMem hd

/-- The decoder rejects an instruction that needs more bytes than remain. -/
theorem decode_remaining_truncated {n : Nat} (h2 : 2 ≤ s.avail) (hn : bytesNeeded (windowAt s s.cursor) = some n)
    (hlt : s.avail < n) : decode s.remaining = .error (.truncated (windowAt s s.cursor)) := by
  rw [remaining_cons h2]
  rcases decode_from _ hn with ⟨-, hrej⟩ | ⟨hle, -⟩
  · exact hrej
  · rw [List.length_map, List.length_range] at hle; omega

theorem step_enabled (h : s.enabled) : step s = stepScanning s := by
  obtain ⟨hr, hst⟩ := h
  simp only [step, stepBlock, hr, hst, Bool.false_eq_true, ↓reduceIte]

theorem step_decoded {i : Instr} {r : List Byte} (h : s.enabled) (hok : decode s.remaining = .ok (i, r)) :
    step s = exec i s := by
  rw [step_enabled h, stepScanning_eq, hok]

theorem step_rejected {e : DecodeError} (h : s.enabled) (herr : decode s.remaining = .error e) :
    step s = .next (failedWith s e.kind e.window) := by
  rw [step_enabled h, stepScanning_eq, herr]; rfl

/-- An instruction that needs more bytes than remain fails TruncatedStream with its window. -/
theorem step_truncated {n : Nat} (h : s.enabled) (h2 : 2 ≤ s.avail) (hn : bytesNeeded (windowAt s s.cursor) = some n)
    (hlt : s.avail < n) : step s = .next (failedWith s .truncatedStream (some (windowAt s s.cursor))) :=
  step_rejected h (decode_remaining_truncated h2 hn hlt)

end Sys2Proof.Machine
end

section
/-! PROOFS. The results of the RegMemToFromReg rows (41_mov_regmem.md R130, R131, R133, R134, R137). -/

namespace Sys2Proof.Machine

/-! The direction rule (40_operand_resolver.md R108). -/

theorem order_fst (d : BitVec 1) (regOp rmOp : Operand) : (order d regOp rmOp).1 = if d = 1#1 then regOp else rmOp :=
  apply_ite Prod.fst ..

theorem order_snd (d : BitVec 1) (regOp rmOp : Operand) : (order d regOp rmOp).2 = if d = 1#1 then rmOp else regOp :=
  apply_ite Prod.snd ..

/-- Two ordered pairs agree when the operands do, or when both the direction and the operands are swapped. -/
theorem order_eq_iff {d d' : BitVec 1} {a b a' b' : Operand} :
    order d' a' b' = order d a b ↔ (d' = d ∧ a' = a ∧ b' = b) ∨ (d' ≠ d ∧ a' = b ∧ b' = a) := by
  rcases bit_cases d with rfl | rfl <;> rcases bit_cases d' with rfl | rfl <;> simp [order, and_comm]

theorem regOf_eq_iff {f f' : BitVec 3} {w w' : BitVec 1} : regOf f w = regOf f' w' ↔ f = f' ∧ w = w' :=
  ⟨regOf_injective, fun ⟨hf, hw⟩ => hf ▸ hw ▸ rfl⟩

/-- The two encodings of a record of two registers, one for each direction bit (R130). -/
theorem order_regs_eq_iff {d w d' w' : BitVec 1} {reg rm reg' rm' : BitVec 3} :
    order d' (.reg (regOf reg' w')) (.reg (regOf rm' w')) = order d (.reg (regOf reg w)) (.reg (regOf rm w)) ↔
      w' = w ∧ ((d' = d ∧ reg' = reg ∧ rm' = rm) ∨ (d' ≠ d ∧ reg' = rm ∧ rm' = reg)) := by
  simp only [order_eq_iff, Operand.reg.injEq, regOf_eq_iff]
  tauto

/-! The record each row emits, when the instruction fits. -/

section exec
variable {d w : BitVec 1} {reg rm : BitVec 3} {s : State}

/-- A checked record of two operands is emitted in the order that the direction bit gives. -/
theorem emitChecked_regMem {W : Word} {regOp rmOp : Operand} {len : Nat} (h : len ≤ s.avail) :
    emitChecked W (regMemRecord d regOp rmOp len) s =
      .next (emitted s (if d = 1#1 then regOp else rmOp) (if d = 1#1 then rmOp else regOp) len) := by
  rw [emitChecked_fits (by exact h), ← order_fst, ← order_snd]; rfl

theorem emitNoDisp_emits {W : Word} (hrm : rm ≠ 6#3) (h : 2 ≤ s.avail) :
    emitNoDisp W d w reg rm s =
      .next (emitted s (if d = 1#1 then .reg (regOf reg w) else .mem ⟨eaBase rm, .none⟩)
        (if d = 1#1 then .mem ⟨eaBase rm, .none⟩ else .reg (regOf reg w)) 2) := by
  rw [emitNoDisp_eq hrm]; exact emitChecked_regMem h

theorem exec_movRR (h : 2 ≤ s.avail) :
    exec (.movRR d w reg rm) s =
      .next (emitted s (if d = 1#1 then .reg (regOf reg w) else .reg (regOf rm w))
        (if d = 1#1 then .reg (regOf rm w) else .reg (regOf reg w)) 2) :=
  emitChecked_regMem h

theorem exec_movM0a (hrm : rm ≠ 6#3) (h : 2 ≤ s.avail) :
    exec (.movM0a d w reg rm) s =
      .next (emitted s (if d = 1#1 then .reg (regOf reg w) else .mem ⟨eaBase rm, .none⟩)
        (if d = 1#1 then .mem ⟨eaBase rm, .none⟩ else .reg (regOf reg w)) 2) :=
  emitNoDisp_emits hrm h

theorem exec_movM0b (hrm : rm ≠ 6#3) (h : 2 ≤ s.avail) :
    exec (.movM0b d w reg rm) s =
      .next (emitted s (if d = 1#1 then .reg (regOf reg w) else .mem ⟨eaBase rm, .none⟩)
        (if d = 1#1 then .mem ⟨eaBase rm, .none⟩ else .reg (regOf reg w)) 2) :=
  emitNoDisp_emits hrm h

theorem exec_movM0c (h : 2 ≤ s.avail) :
    exec (.movM0c d w reg) s =
      .next (emitted s (if d = 1#1 then .reg (regOf reg w) else .mem ⟨.bx, .none⟩)
        (if d = 1#1 then .mem ⟨.bx, .none⟩ else .reg (regOf reg w)) 2) :=
  emitNoDisp_emits (rm := 7#3) (by decide) h

theorem exec_movM8 {disp : Byte} (h : 3 ≤ s.avail) :
    exec (.movM8 d w reg rm disp) s =
      .next (emitted s (if d = 1#1 then .reg (regOf reg w) else .mem ⟨eaBase rm, .d8 (sext16 disp)⟩)
        (if d = 1#1 then .mem ⟨eaBase rm, .d8 (sext16 disp)⟩ else .reg (regOf reg w)) 3) :=
  emitChecked_regMem h

theorem exec_movM16 {disp : Word} (h : 4 ≤ s.avail) :
    exec (.movM16 d w reg rm disp) s =
      .next (emitted s (if d = 1#1 then .reg (regOf reg w) else .mem ⟨eaBase rm, .d16 (signed16 disp)⟩)
        (if d = 1#1 then .mem ⟨eaBase rm, .d16 (signed16 disp)⟩ else .reg (regOf reg w)) 4) :=
  emitChecked_regMem h

end exec

/-- Settles O15: the row's pattern fixes the class and `mod` = 11, the record is the checked one, and a pair of register
operands determines its fields up to the direction. -/
theorem movRRResult : Obligations.MovRRResult := by
  refine ⟨fun b0 b1 rest hmask => ?_, fun d w reg rm s => exec_movRR,
    fun d w reg rm d' w' reg' rm' => order_regs_eq_iff⟩
  obtain ⟨hclass, hmod⟩ := regMem_of_mask (mod := 3#2) hmask
  rw [decode_regMem hclass, decodeRegMem_rr hmod]

/-- Settles O16: the three rows are the ones of `mod` = 00 by `rm`, and each ends in the same checked record. -/
theorem movNoDisplacementResult : Obligations.MovNoDisplacementResult := by
  refine ⟨fun b0 b1 rest hmask hrm => ?_, fun d w reg rm s hrm => ?_, fun d w reg rm s hrm => ?_,
    fun d w reg s => exec_movM0c⟩
  · obtain ⟨hclass, hmod⟩ := regMem_of_mask (mod := 0#2) hmask
    rw [decode_regMem hclass, decodeRegMem_noDisp hmod, if_neg hrm]
  · exact exec_movM0a (by rintro rfl; exact absurd hrm (by decide))
  · exact exec_movM0b (by rintro rfl; exact absurd hrm (by decide))

/-- Settles O18: the row is the one of `mod` = 01, whose displacement byte is the third that remains. -/
theorem movDisplacement8Result : Obligations.MovDisplacement8Result := by
  refine ⟨fun b0 b1 b2 rest hmask => ?_, fun d w reg rm disp s => exec_movM8, sext16_toInt, fun s hen h2 hmask => ?_⟩
  · obtain ⟨hclass, hmod⟩ := regMem_of_mask (mod := 1#2) hmask
    rw [decode_regMem hclass, decodeRegMem_m8 hmod]
  · obtain ⟨hclass, hmod⟩ := regMem_of_mask (mod := 1#2) hmask
    have needs3 : bytesNeeded (windowAt s s.cursor) = some 3 := by rw [bytesNeeded_regMem hclass, hmod]; rfl
    exact step_truncated hen (by omega) needs3 (by omega)

/-- Settles O19: the row is the one of `mod` = 10, whose displacement is the third and fourth byte, low first. -/
theorem movDisplacement16Result : Obligations.MovDisplacement16Result := by
  refine ⟨fun b0 b1 b2 b3 rest hmask => ?_, fun d w reg rm disp s => exec_movM16, signed16_toInt,
    fun s hen h2 hlt hmask => ?_⟩
  · obtain ⟨hclass, hmod⟩ := regMem_of_mask (mod := 2#2) hmask
    rw [decode_regMem hclass, decodeRegMem_m16 hmod]; rfl
  · obtain ⟨hclass, hmod⟩ := regMem_of_mask (mod := 2#2) hmask
    have needs4 : bytesNeeded (windowAt s s.cursor) = some 4 := by rw [bytesNeeded_regMem hclass, hmod]; rfl
    exact step_truncated hen h2 needs4 hlt

/-! The step over each value of `mod`, when the instruction fits. -/

section step
variable {s : State} (hen : s.enabled) (hclass : dispatch (windowAt s s.cursor) = some .regMemToFromReg)
include hen hclass

theorem step_mod01_emits (hmod : rmMod (windowAt s s.cursor) = 1#2) (h3 : 3 ≤ s.avail) :
    ∃ dst src, step s = .next (emitted s dst src 3) := by
  have hdec := decode_remaining_regMem (by omega) hclass
  rw [remaining_drop (by omega), decodeRegMem_m8 hmod] at hdec
  exact ⟨_, _, (step_decoded hen hdec).trans (exec_movM8 h3)⟩

theorem step_mod10_emits (hmod : rmMod (windowAt s s.cursor) = 2#2) (h4 : 4 ≤ s.avail) :
    ∃ dst src, step s = .next (emitted s dst src 4) := by
  have hdec := decode_remaining_regMem (by omega) hclass
  rw [remaining_drop (by omega), remaining_drop (by omega), decodeRegMem_m16 hmod] at hdec
  exact ⟨_, _, (step_decoded hen hdec).trans (exec_movM16 h4)⟩

theorem step_mod11_emits (hmod : rmMod (windowAt s s.cursor) = 3#2) (h2 : 2 ≤ s.avail) :
    ∃ dst src, step s = .next (emitted s dst src 2) := by
  have hdec := decode_remaining_regMem h2 hclass
  rw [decodeRegMem_rr hmod] at hdec
  exact ⟨_, _, (step_decoded hen hdec).trans (exec_movRR h2)⟩

theorem step_mod00_emits (hmod : rmMod (windowAt s s.cursor) = 0#2) (hrm : rmRm (windowAt s s.cursor) ≠ 6#3)
    (h2 : 2 ≤ s.avail) : ∃ dst src, step s = .next (emitted s dst src 2) := by
  have hdec := decode_remaining_regMem h2 hclass
  rw [decodeRegMem_noDisp hmod, if_neg hrm] at hdec
  rw [step_decoded hen hdec]
  split_ifs
  · exact ⟨_, _, exec_movM0c h2⟩
  · exact ⟨_, _, exec_movM0a hrm h2⟩
  · exact ⟨_, _, exec_movM0b hrm h2⟩

end step

/-- Settles O24: the mask is the class, and within it `mod` decides the row and so the length. -/
theorem lengthByMod : Obligations.LengthByMod := by
  intro s hen h2 hmask
  have hclass := dispatch_regMem_iff_mask.mpr hmask
  refine ⟨step_mod01_emits hen hclass, step_mod10_emits hen hclass, fun hmod => ?_, fun hmod hrm => ?_⟩
  · exact step_mod11_emits hen hclass hmod h2
  · exact step_mod00_emits hen hclass hmod hrm h2

end Sys2Proof.Machine
end

section
/-! PROOFS. A row of ImmediateToReg is the class with `w` fixed (30_encoding.md R79). -/

namespace Sys2Proof

variable {W : Word} {w : BitVec 1}

/-- A mask that covers bit 11 keeps it. -/
theorem irW_and {mask : Word} (W : Word) (h : irW mask = BitVec.allOnes 1) : irW (W &&& mask) = irW W := by
  rw [irW, fieldAt_and, ← irW, ← irW, h, BitVec.and_allOnes]

/-- The pattern of an ImmediateToReg row fixes the class and `w`. -/
theorem immReg_of_mask (h : W &&& 0xF800#16 = irWindow w 0#3 0#8) :
    dispatch W = some .immediateToReg ∧ irW W = w := by
  constructor
  · have classBits : W &&& 0xF000#16 = irWindow w 0#3 0#8 &&& 0xF000#16 := by
      rw [← h, BitVec.and_assoc]; rfl
    rw [dispatch_immReg_iff_mask, classBits, ← dispatch_immReg_iff_mask]
    exact dispatch_irWindow w 0#3 0#8
  · rw [← irW_and W (mask := 0xF800#16) (by decide), h, irW_irWindow]

/-! The fields of the window as fields of its bytes (R73). -/

/-- `reg` is the low three bits of byte 0. -/
@[simp] theorem irReg_bytePair (b0 b1 : Byte) : irReg (bytePair b0 b1) = b0.extractLsb' 0 3 := by
  apply BitVec.eq_of_toNat_eq
  rw [irReg_toNat, bytePair_toNat, BitVec.extractLsb'_toNat, Nat.shiftRight_zero]; omega

/-- `data-lo` is byte 1. -/
@[simp] theorem irData_bytePair (b0 b1 : Byte) : irData (bytePair b0 b1) = b1 := by
  apply BitVec.eq_of_toNat_eq
  rw [irData_toNat, bytePair_toNat]; omega

end Sys2Proof
end

section
/-! PROOFS. The results of the ImmediateToReg rows (42_mov_imm_reg.md R150, R151). -/

namespace Sys2Proof.Machine

variable {reg : BitVec 3} {s : State}

/-! The names in the order of the `reg` field (10_state.md R21). -/

theorem regOf_names8 (reg : BitVec 3) :
    some (regOf reg 0#1) = [Reg.al, .cl, .dl, .bl, .ah, .ch, .dh, .bh][reg.toNat]? := by
  revert reg; decide

theorem regOf_names16 (reg : BitVec 3) :
    some (regOf reg 1#1) = [Reg.ax, .cx, .dx, .bx, .sp, .bp, .si, .di][reg.toNat]? := by
  revert reg; decide

/-! The record each row emits, when the instruction fits. -/

theorem exec_movIR8 {data : Byte} (h : 2 ≤ s.avail) :
    exec (.movIR8 reg data) s = .next (emitted s (.reg (regOf reg 0#1)) (.imm (sext16 data)) 2) :=
  emitChecked_fits h

theorem exec_movIR16 {data : Word} (h : 3 ≤ s.avail) :
    exec (.movIR16 reg data) s = .next (emitted s (.reg (regOf reg 1#1)) (.imm (signed16 data)) 3) :=
  emitChecked_fits h

/-- Settles O20: the row is the one of `w` = 0, whose fields are those of the two bytes of the window. -/
theorem movImmediate8Result : Obligations.MovImmediate8Result := by
  refine ⟨fun b0 b1 rest hmask => ?_, fun reg data s => exec_movIR8, regOf_names8, sext16_toInt⟩
  obtain ⟨hclass, hw⟩ := immReg_of_mask (w := 0#1) hmask
  rw [decode_immReg hclass, decodeImmReg_ir8 hw, irReg_bytePair, irData_bytePair]

/-- Settles O21: the row is the one of `w` = 1, whose third byte is the high one of the immediate. -/
theorem movImmediate16Result : Obligations.MovImmediate16Result := by
  refine ⟨fun b0 b1 b2 rest hmask => ?_, fun reg data s => exec_movIR16, regOf_names16, signed16_toInt,
    fun s hen h2 hmask => ?_⟩
  · obtain ⟨hclass, hw⟩ := immReg_of_mask (w := 1#1) hmask
    rw [decode_immReg hclass, decodeImmReg_ir16 hw, irReg_bytePair, irData_bytePair]; rfl
  · obtain ⟨hclass, hw⟩ := immReg_of_mask (w := 1#1) hmask
    have needs3 : bytesNeeded (windowAt s s.cursor) = some 3 := by rw [bytesNeeded_immReg hclass, hw]; rfl
    exact step_truncated hen (by omega) needs3 (by omega)

end Sys2Proof.Machine
end

section
/-! PROOFS. The step of an enabled block is the spec's own (44_stream_advance.md R178). -/

namespace Sys2Proof.Machine

variable {s : State} {W : Word} {c : Nat}

/-! The class decode of RegMemToFromReg (41_mov_regmem.md R135), row by row. -/

theorem decodeRM_direct (hmod : rmMod W = 0#2) (hrm : rmRm W = 6#3) :
    decodeRM s W c = .error ⟨.notImplemented, c, some W⟩ := if_pos ⟨hmod, hrm⟩

theorem decodeRM_truncated (h2 : 2 ≤ s.streamLen - c) (hlt : s.streamLen - c < 2 + regMemExtra (rmMod W)) :
    decodeRM s W c = .error ⟨.truncatedStream, c, some W⟩ := by
  have notDirect : ¬ (rmMod W = 0#2 ∧ rmRm W = 6#3) := by
    rintro ⟨hmod, -⟩
    rw [hmod] at hlt
    exact absurd hlt (Nat.not_lt.mpr h2)
  rw [decodeRM, if_neg notDirect]; exact if_pos hlt

theorem decodeRM_rr (hmod : rmMod W = 3#2) (h : 2 ≤ s.streamLen - c) :
    decodeRM s W c =
      .ok (regMemRecord (rmD W) (regOperand (rmReg W) (rmW W)) (regOperand (rmRm W) (rmW W)) 2) := by
  simp [decodeRM, hmod, regMemExtra, Nat.not_lt.mpr h, regMemRecord, regOperand]

theorem decodeRM_noDisp (hmod : rmMod W = 0#2) (hrm : rmRm W ≠ 6#3) (h : 2 ≤ s.streamLen - c) :
    decodeRM s W c =
      .ok (regMemRecord (rmD W) (regOperand (rmReg W) (rmW W)) (.mem ⟨eaBase (rmRm W), .none⟩) 2) := by
  simp [decodeRM, hmod, hrm, regMemExtra, Nat.not_lt.mpr h, regMemRecord, regOperand, dispOf]

theorem decodeRM_m8 (hmod : rmMod W = 1#2) (h : 3 ≤ s.streamLen - c) :
    decodeRM s W c =
      .ok (regMemRecord (rmD W) (regOperand (rmReg W) (rmW W))
        (memOperand (rmRm W) (disp8 (streamAt s (c + 2)))) 3) := by
  simp [decodeRM, hmod, regMemExtra, Nat.not_lt.mpr h, regMemRecord, regOperand, memOperand, dispOf, disp8]

theorem decodeRM_m16 (hmod : rmMod W = 2#2) (h : 4 ≤ s.streamLen - c) :
    decodeRM s W c =
      .ok (regMemRecord (rmD W) (regOperand (rmReg W) (rmW W))
        (memOperand (rmRm W) (disp16 (bytePair (streamAt s (c + 3)) (streamAt s (c + 2))))) 4) := by
  simp [decodeRM, hmod, regMemExtra, Nat.not_lt.mpr h, regMemRecord, regOperand, memOperand, dispOf, disp16]

/-! The class decode of ImmediateToReg (42_mov_imm_reg.md R152), row by row. -/

theorem decodeIR_truncated (hlt : s.streamLen - c < 2 + (irW W).toNat) :
    decodeIR s W c = .error ⟨.truncatedStream, c, some W⟩ := if_pos hlt

theorem decodeIR_ir8 (hw : irW W = 0#1) (h : 2 ≤ s.streamLen - c) :
    decodeIR s W c = .ok (immRegRecord (irReg W) 0#1 (sext16 (irData W)) 2) := by
  simp [decodeIR, hw, Nat.not_lt.mpr h, immRegRecord, regOperand]

theorem decodeIR_ir16 (hw : irW W = 1#1) (h : 3 ≤ s.streamLen - c) :
    decodeIR s W c =
      .ok (immRegRecord (irReg W) 1#1 (signed16 (bytePair (streamAt s (c + 2)) (irData W))) 3) := by
  simp [decodeIR, hw, Nat.not_lt.mpr h, immRegRecord, regOperand]

/-! The spec's decision at an offset (44_stream_advance.md R178), by the class of the window. -/

theorem decodeAt_short (h : s.streamLen - c < 2) : decodeAt s c = .error ⟨.truncatedStream, c, none⟩ := if_pos h

section decodeAt
variable (h2 : 2 ≤ s.streamLen - c)
include h2

theorem decodeAt_noClass (hclass : dispatch (windowAt s c) = none) :
    decodeAt s c = .error ⟨.unsupportedOpcode, c, some (windowAt s c)⟩ := by
  simp only [decodeAt, if_neg (Nat.not_lt.mpr h2), hclass]

theorem decodeAt_immRegMem (hclass : dispatch (windowAt s c) = some .immediateToRegMem) :
    decodeAt s c = .error ⟨.notImplemented, c, some (windowAt s c)⟩ := by
  simp only [decodeAt, if_neg (Nat.not_lt.mpr h2), hclass]

theorem decodeAt_regMem (hclass : dispatch (windowAt s c) = some .regMemToFromReg) :
    decodeAt s c = decodeRM s (windowAt s c) c := by
  simp only [decodeAt, if_neg (Nat.not_lt.mpr h2), hclass]

theorem decodeAt_immReg (hclass : dispatch (windowAt s c) = some .immediateToReg) :
    decodeAt s c = decodeIR s (windowAt s c) c := by
  simp only [decodeAt, if_neg (Nat.not_lt.mpr h2), hclass]

end decodeAt

/-! The spec's step, by what it decides at the cursor. -/

theorem refStep_record {rec : Record} (h : decodeAt s s.cursor = .ok rec) : refStep s = s.emitAdvance rec := by
  rw [refStep, h]; rfl

theorem refStep_failure {kind : ErrKind} {window : Option Word}
    (h : decodeAt s s.cursor = .error ⟨kind, s.cursor, window⟩) : refStep s = failedWith s kind window := by
  rw [refStep, h]; rfl

theorem refStep_failed {e : ErrRec} (h : decodeAt s s.cursor = .error e) : (refStep s).status = .failed := by
  rw [refStep, h]

/-! The decoder over the bytes that remain, for the other classes. -/

theorem decode_remaining_immReg (h2 : 2 ≤ s.avail) (hclass : dispatch (windowAt s s.cursor) = some .immediateToReg) :
    decode s.remaining = decodeImmReg (windowAt s s.cursor) (s.remaining.drop 2) := by
  rw [remaining_cons h2]; exact decode_immReg hclass

theorem decode_remaining_immRegMem (h2 : 2 ≤ s.avail)
    (hclass : dispatch (windowAt s s.cursor) = some .immediateToRegMem) :
    decode s.remaining = .ok (.movIRM (irmW (windowAt s s.cursor)) (windowByte1 (windowAt s s.cursor)),
      s.remaining.drop 2) := by
  rw [remaining_cons h2]; exact decode_immRegMem hclass

theorem decode_remaining_noClass (h2 : 2 ≤ s.avail) (hclass : dispatch (windowAt s s.cursor) = none) :
    decode s.remaining = .error (.unsupported (windowAt s s.cursor)) := by
  rw [remaining_cons h2]; exact decode_noClass hclass

/-! The step agrees with the spec's, class by class. -/

section step
variable (hen : s.enabled)
include hen

theorem step_eq_refStep_short (h : s.avail < 2) : step s = .next (refStep s) := by
  rw [refStep_failure (decodeAt_short h)]
  exact step_rejected hen (decode_remaining_short h)

variable (h2 : 2 ≤ s.avail)
include h2

theorem step_eq_refStep_noClass (hclass : dispatch (windowAt s s.cursor) = none) : step s = .next (refStep s) := by
  rw [refStep_failure (decodeAt_noClass h2 hclass)]
  exact step_rejected hen (decode_remaining_noClass h2 hclass)

/-- The instruction carries the fields of the window, and its failure the window of these fields. -/
theorem step_eq_refStep_immRegMem (hclass : dispatch (windowAt s s.cursor) = some .immediateToRegMem) :
    step s = .next (refStep s) := by
  rw [refStep_failure (decodeAt_immRegMem h2 hclass), ← irmWindow_fields hclass]
  exact step_decoded hen (decode_remaining_immRegMem h2 hclass)

theorem step_eq_refStep_immReg (hclass : dispatch (windowAt s s.cursor) = some .immediateToReg) :
    step s = .next (refStep s) := by
  have href := decodeAt_immReg h2 hclass
  have hdec := decode_remaining_immReg h2 hclass
  by_cases hlt : s.avail < 2 + (irW (windowAt s s.cursor)).toNat
  · rw [refStep_failure (href.trans (decodeIR_truncated hlt))]
    exact step_truncated hen h2 (bytesNeeded_immReg hclass) hlt
  · rcases bit_cases (irW (windowAt s s.cursor)) with hw | hw
    · rw [decodeImmReg_ir8 hw] at hdec
      rw [refStep_record (href.trans (decodeIR_ir8 hw h2)), step_decoded hen hdec]
      exact emitChecked_fits h2
    · have h3 : 3 ≤ s.avail := by rw [hw] at hlt; exact Nat.not_lt.mp hlt
      rw [remaining_drop h3, decodeImmReg_ir16 hw] at hdec
      rw [refStep_record (href.trans (decodeIR_ir16 hw h3)), step_decoded hen hdec]
      exact emitChecked_fits h3

section regMem
variable (hclass : dispatch (windowAt s s.cursor) = some .regMemToFromReg)
include hclass

/-- `mod` = 00: the direct form fails with its window, and the three rows of the other `rm` emit the same record. -/
theorem step_eq_refStep_mod00 (hmod : rmMod (windowAt s s.cursor) = 0#2) : step s = .next (refStep s) := by
  have href := decodeAt_regMem h2 hclass
  have hdec := decode_remaining_regMem h2 hclass
  rw [decodeRegMem_noDisp hmod] at hdec
  by_cases hrm : rmRm (windowAt s s.cursor) = 6#3
  · have window_eq := rmWindow_fields hclass
    rw [hmod, hrm] at window_eq
    rw [if_pos hrm] at hdec
    rw [refStep_failure (href.trans (decodeRM_direct hmod hrm)), ← window_eq]
    exact step_decoded hen hdec
  · rw [if_neg hrm] at hdec
    rw [refStep_record (href.trans (decodeRM_noDisp hmod hrm h2)), step_decoded hen hdec]
    split_ifs with h7
    · rw [h7]; exact (emitNoDisp_eq (rm := 7#3) (by decide)).trans (emitChecked_fits h2)
    · exact (emitNoDisp_eq hrm).trans (emitChecked_fits h2)
    · exact (emitNoDisp_eq hrm).trans (emitChecked_fits h2)

theorem step_eq_refStep_regMem : step s = .next (refStep s) := by
  have href := decodeAt_regMem h2 hclass
  have hdec := decode_remaining_regMem h2 hclass
  by_cases hlt : s.avail < 2 + regMemExtra (rmMod (windowAt s s.cursor))
  · rw [refStep_failure (href.trans (decodeRM_truncated h2 hlt))]
    exact step_truncated hen h2 (bytesNeeded_regMem hclass) hlt
  · rcases mod_cases (rmMod (windowAt s s.cursor)) with hmod | hmod | hmod | hmod
    · exact step_eq_refStep_mod00 hen h2 hclass hmod
    · have h3 : 3 ≤ s.avail := by rw [hmod] at hlt; exact Nat.not_lt.mp hlt
      rw [remaining_drop h3, decodeRegMem_m8 hmod] at hdec
      rw [refStep_record (href.trans (decodeRM_m8 hmod h3)), step_decoded hen hdec]
      exact emitChecked_fits h3
    · have h4 : 4 ≤ s.avail := by rw [hmod] at hlt; exact Nat.not_lt.mp hlt
      rw [remaining_drop (by omega), remaining_drop h4, decodeRegMem_m16 hmod] at hdec
      rw [refStep_record (href.trans (decodeRM_m16 hmod h4)), step_decoded hen hdec]
      exact emitChecked_fits h4
    · rw [decodeRegMem_rr hmod] at hdec
      rw [refStep_record (href.trans (decodeRM_rr hmod h2)), step_decoded hen hdec]
      exact emitChecked_fits h2

end regMem
end step

/-- In every enabled state the step is the spec's. -/
theorem step_eq_refStep (hen : s.enabled) : step s = .next (refStep s) := by
  by_cases hshort : s.avail < 2
  · exact step_eq_refStep_short hen hshort
  · have h2 : 2 ≤ s.avail := Nat.not_lt.mp hshort
    cases hclass : dispatch (windowAt s s.cursor) with
    | none => exact step_eq_refStep_noClass hen h2 hclass
    | some tag =>
      cases tag with
      | regMemToFromReg => exact step_eq_refStep_regMem hen h2 hclass
      | immediateToRegMem => exact step_eq_refStep_immRegMem hen h2 hclass
      | immediateToReg => exact step_eq_refStep_immReg hen h2 hclass

end Sys2Proof.Machine
end

section
/-! PROOFS. What a successful step emits and writes (44_stream_advance.md R176). -/

namespace Sys2Proof.Machine

variable {s : State}

/-- A record determines the state after it: it is the last of the log. -/
theorem emitAdvance_injective {rec rec' : Record} (h : s.emitAdvance rec = s.emitAdvance rec') : rec = rec' := by
  simpa using congrArg State.outLog h

/-- A step that emits a record emits one of 2 to 4 bytes that fits. -/
theorem len_bounds_of_step_emits {rec : Record} (hen : s.enabled) (h : step s = .next (s.emitAdvance rec)) :
    2 ≤ rec.len ∧ rec.len ≤ 4 ∧ rec.len ≤ s.avail := by
  rcases step_outcomes hen with ⟨kind, window, hfail⟩ | ⟨rec', -, h2, h4, hfit, hemit⟩
  · have status_eq := congrArg State.status (Host.Outcome.next.inj (h.symm.trans hfail))
    exact absurd status_eq (emitAdvance_not_failed s rec)
  · obtain rfl := emitAdvance_injective (Host.Outcome.next.inj (h.symm.trans hemit))
    exact ⟨h2, h4, hfit⟩

/-- Settles O29: the step is the spec's, so one that does not fail emits the record decided at the cursor, whose bounds
are those of every step that emits. -/
theorem emitAndAdvance : Obligations.EmitAndAdvance := by
  intro s t hen hstep hok
  have href := step_eq_refStep hen
  obtain rfl := Host.Outcome.next.inj (hstep.symm.trans href)
  cases hdec : decodeAt s s.cursor with
  | error e => exact absurd (refStep_failed hdec) hok
  | ok rec =>
    rw [refStep_record hdec] at href ⊢
    obtain ⟨h2, h4, hfit⟩ := len_bounds_of_step_emits hen href
    have inside : s.cursor + rec.len ≤ s.streamLen := by rw [State.avail] at hfit; omega
    exact ⟨rec, rfl, rfl, h2, h4, inside, rfl⟩

end Sys2Proof.Machine
end

section
/-! PROOFS. The decoder and the encoder are inverse to each other (30_encoding.md R70, R79). -/

namespace Sys2Proof

variable {i : Instr} {W : Word} {b0 b1 data : Byte} {rest r : List Byte}
variable {d w : BitVec 1} {mod : BitVec 2} {reg rm : BitVec 3}

/-! Decoding the bytes of an instruction, by the class of its window. -/

/-- The bytes of an instruction whose window is these two bytes. -/
theorem encode_append_eq (hwindow : i.window = bytePair b0 b1) :
    encode i ++ rest = b0 :: b1 :: (i.tail ++ rest) := by
  rw [encode, hwindow, highByte_bytePair, lowByte_bytePair]; rfl

theorem decode_encode_rmWindow (hwindow : i.window = rmWindow d w mod reg rm) :
    decode (encode i ++ rest) = decodeRegMem (rmWindow d w mod reg rm) (i.tail ++ rest) := by
  have hclass := dispatch_rmWindow d w mod reg rm
  rw [← bytePair_high_low (rmWindow d w mod reg rm)] at hwindow hclass ⊢
  rw [encode_append_eq hwindow]; exact decode_regMem hclass

theorem decode_encode_irWindow (hwindow : i.window = irWindow w reg data) :
    decode (encode i ++ rest) = decodeImmReg (irWindow w reg data) (i.tail ++ rest) := by
  have hclass := dispatch_irWindow w reg data
  rw [← bytePair_high_low (irWindow w reg data)] at hwindow hclass ⊢
  rw [encode_append_eq hwindow]; exact decode_immReg hclass

/-- The decoder of `mod` = 00 on the window of given fields: the form is the one that `rm` names. -/
theorem decodeRegMem_rmWindow_noDisp :
    decodeRegMem (rmWindow d w 0#2 reg rm) rest =
      .ok (if rm = 6#3 then .movDirect d w reg else if rm = 7#3 then .movM0c d w reg
        else if rm.toNat ≤ 3 then .movM0a d w reg rm else .movM0b d w reg rm, rest) := by
  rw [decodeRegMem_noDisp (rmMod_rmWindow d w 0#2 reg rm), rmD_rmWindow, rmW_rmWindow, rmReg_rmWindow, rmRm_rmWindow]

/-- A well-formed instruction is read back from its bytes, whatever follows them. -/
theorem decode_encode (hwf : i.wf = true) : decode (encode i ++ rest) = .ok (i, rest) := by
  cases i with
  | movRR d w reg rm =>
    rw [decode_encode_rmWindow (i := .movRR d w reg rm) rfl, decodeRegMem_rr (rmMod_rmWindow d w 3#2 reg rm)]
    simp [Instr.tail]
  | movM0a d w reg rm =>
    have hrm : rm.toNat ≤ 3 := of_decide_eq_true hwf
    have not_direct : rm ≠ 6#3 := by rintro rfl; exact absurd hrm (by decide)
    have not_m0c : rm ≠ 7#3 := by rintro rfl; exact absurd hrm (by decide)
    rw [decode_encode_rmWindow (i := .movM0a d w reg rm) rfl, decodeRegMem_rmWindow_noDisp,
      if_neg not_direct, if_neg not_m0c, if_pos hrm]
    rfl
  | movM0b d w reg rm =>
    have hrm : rm.toNat = 4 ∨ rm.toNat = 5 := of_decide_eq_true hwf
    have not_direct : rm ≠ 6#3 := by rintro rfl; exact absurd hrm (by decide)
    have not_m0c : rm ≠ 7#3 := by rintro rfl; exact absurd hrm (by decide)
    rw [decode_encode_rmWindow (i := .movM0b d w reg rm) rfl, decodeRegMem_rmWindow_noDisp,
      if_neg not_direct, if_neg not_m0c, if_neg (by omega)]
    rfl
  | movM0c d w reg =>
    rw [decode_encode_rmWindow (i := .movM0c d w reg) rfl, decodeRegMem_rmWindow_noDisp]; rfl
  | movDirect d w reg =>
    rw [decode_encode_rmWindow (i := .movDirect d w reg) rfl, decodeRegMem_rmWindow_noDisp]; rfl
  | movM8 d w reg rm disp =>
    rw [decode_encode_rmWindow (i := .movM8 d w reg rm disp) rfl, Instr.tail, List.cons_append,
      decodeRegMem_m8 (rmMod_rmWindow d w 1#2 reg rm)]
    simp
  | movM16 d w reg rm disp =>
    rw [decode_encode_rmWindow (i := .movM16 d w reg rm disp) rfl, Instr.tail, List.cons_append, List.cons_append,
      decodeRegMem_m16 (rmMod_rmWindow d w 2#2 reg rm)]
    simp
  | movIR8 reg data =>
    rw [decode_encode_irWindow (i := .movIR8 reg data) rfl, decodeImmReg_ir8 (irW_irWindow 0#1 reg data)]
    simp [Instr.tail]
  | movIR16 reg data =>
    rw [decode_encode_irWindow (i := .movIR16 reg data) rfl, Instr.tail, List.cons_append,
      decodeImmReg_ir16 (irW_irWindow 1#1 reg (lowByte data))]
    simp
  | movIRM w byte1 =>
    have hclass := dispatch_irmWindow w byte1
    rw [← bytePair_high_low (irmWindow w byte1)] at hclass
    have hdec := decode_immRegMem (rest := rest) hclass
    rw [bytePair_high_low, irmW_irmWindow, windowByte1_irmWindow] at hdec
    exact hdec

/-- Settles O1: the window of an instruction has its class and its fields, from which the decoder of the class builds it
again. -/
theorem decodeEncodeAgree : Obligations.DecodeEncodeAgree :=
  fun _ _ hwf => decode_encode hwf

/-! What the decoder answers is an encoding. -/

/-- An answered instruction, its window and its tail are those of the bytes read. -/
def Reads (W : Word) (tail : List Byte) (i : Instr) (rest : List Byte) : Prop :=
  i.wf = true ∧ i.window = W ∧ tail = i.tail ++ rest

/-- The values of `rm` that no other row of `mod` = 00 takes. -/
theorem rm_four_or_five (h6 : rm ≠ 6#3) (h7 : rm ≠ 7#3) (h3 : ¬ rm.toNat ≤ 3) : rm.toNat = 4 ∨ rm.toNat = 5 := by
  revert rm; decide

theorem decodeRegMem_reads (hclass : dispatch W = some .regMemToFromReg) (hok : decodeRegMem W rest = .ok (i, r)) :
    Reads W rest i r := by
  have window_eq := rmWindow_fields hclass
  rcases mod_cases (rmMod W) with hmod | hmod | hmod | hmod <;> rw [hmod] at window_eq
  · rw [decodeRegMem_noDisp hmod] at hok
    split_ifs at hok with h6 h7 h3 <;> cases hok
    · exact ⟨rfl, by rwa [h6] at window_eq, rfl⟩
    · exact ⟨rfl, by rwa [h7] at window_eq, rfl⟩
    · exact ⟨decide_eq_true h3, window_eq, rfl⟩
    · exact ⟨decide_eq_true (rm_four_or_five h6 h7 h3), window_eq, rfl⟩
  · match rest with
    | [] => cases (decodeRegMem_m8_short hmod).symm.trans hok
    | b2 :: tail =>
      cases (decodeRegMem_m8 hmod).symm.trans hok
      exact ⟨rfl, window_eq, rfl⟩
  · match rest with
    | [] | [_] => cases (decodeRegMem_m16_short hmod (by simp)).symm.trans hok
    | b2 :: b3 :: tail =>
      cases (decodeRegMem_m16 hmod).symm.trans hok
      exact ⟨rfl, window_eq, by simp [Instr.tail]⟩
  · cases (decodeRegMem_rr hmod).symm.trans hok
    exact ⟨rfl, window_eq, rfl⟩

theorem decodeImmReg_reads (hclass : dispatch W = some .immediateToReg) (hok : decodeImmReg W rest = .ok (i, r)) :
    Reads W rest i r := by
  have window_eq := irWindow_fields hclass
  rcases bit_cases (irW W) with hw | hw <;> rw [hw] at window_eq
  · cases (decodeImmReg_ir8 hw).symm.trans hok
    exact ⟨rfl, window_eq, rfl⟩
  · match rest with
    | [] => cases (decodeImmReg_ir16_short hw).symm.trans hok
    | b2 :: tail =>
      cases (decodeImmReg_ir16 hw).symm.trans hok
      exact ⟨rfl, by simpa [Instr.window] using window_eq, by simp [Instr.tail]⟩

theorem decode_reads (hok : decode (b0 :: b1 :: rest) = .ok (i, r)) : Reads (bytePair b0 b1) rest i r := by
  cases hclass : dispatch (bytePair b0 b1) with
  | none => cases (decode_noClass hclass).symm.trans hok
  | some tag =>
    cases tag with
    | regMemToFromReg => exact decodeRegMem_reads hclass ((decode_regMem hclass).symm.trans hok)
    | immediateToRegMem =>
      cases (decode_immRegMem hclass).symm.trans hok
      exact ⟨rfl, irmWindow_fields hclass, rfl⟩
    | immediateToReg => exact decodeImmReg_reads hclass ((decode_immReg hclass).symm.trans hok)

/-- What the decoder answers is well formed, and the bytes are its encoding and the bytes left over. -/
theorem wf_and_encode_of_decode {bytes : List Byte} (hok : decode bytes = .ok (i, r)) :
    i.wf = true ∧ bytes = encode i ++ r := by
  match bytes with
  | [] | [_] => cases hok
  | b0 :: b1 :: rest =>
    obtain ⟨hwf, hwindow, htail⟩ := decode_reads hok
    exact ⟨hwf, by rw [encode_append_eq hwindow, htail]⟩

/-- Settles O2: the window is the encoder's window of its own fields, and the bytes after it are the instruction's tail
and what is left over. -/
theorem encodeDecodeAgree : Obligations.EncodeDecodeAgree :=
  fun _ _ _ hok => wf_and_encode_of_decode hok

/-- Settles O3: each clause is the decoder evaluated at one word. -/
theorem specWordsDecode : Obligations.SpecWordsDecode := by
  unfold Obligations.SpecWordsDecode
  decide

end Sys2Proof
end

section
/-! PROOFS. The fields of the window are fields of its bytes (30_encoding.md R73). -/

namespace Sys2Proof

/-- A field of the window above bit 7 is a field of byte 0. -/
theorem fieldAt_bytePair_high (b0 b1 : Byte) (start width : Nat) :
    fieldAt (bytePair b0 b1) (8 + start) width = b0.extractLsb' start width := by
  rw [fieldAt_eq_extractLsb', bytePair, BitVec.extractLsb'_append_eq_of_le (Nat.le_add_right 8 start),
    Nat.add_sub_cancel_left]

/-- A field of the window within bits 7 to 0 is a field of byte 1. -/
theorem fieldAt_bytePair_low (b0 b1 : Byte) {start width : Nat} (h : start + width ≤ 8) :
    fieldAt (bytePair b0 b1) start width = b1.extractLsb' start width := by
  rw [fieldAt_eq_extractLsb', bytePair, BitVec.extractLsb'_append_eq_of_add_le h]

/-- Settles O5: each field lies within one byte of the window. -/
theorem windowFieldsAreByteFields : Obligations.WindowFieldsAreByteFields := by
  intro b0 b1
  exact ⟨fieldAt_bytePair_high b0 b1 1 1, fieldAt_bytePair_high b0 b1 0 1, fieldAt_bytePair_low b0 b1 (by decide),
    fieldAt_bytePair_low b0 b1 (by decide), fieldAt_bytePair_low b0 b1 (by decide), fieldAt_bytePair_high b0 b1 3 1,
    irReg_bytePair b0 b1, irData_bytePair b0 b1⟩

end Sys2Proof
end

section
/-! PROOFS. The dispatch depends on neither the table's order nor byte 1 (30_encoding.md R77, R78). -/

namespace Sys2Proof

variable {W : Word} {c c' : OpcodeClass}

/-- An entry that matches is the class of the window. -/
theorem dispatch_of_match (hc : c ∈ classTab) (h : classMatches W c = true) : dispatch W = some c.tag := by
  simp only [classTab, List.mem_cons, List.not_mem_nil, or_false] at hc
  rcases hc with rfl | rfl | rfl
  · rw [match_regMem, decide_eq_true_iff] at h; exact dispatch_regMem.mpr h
  · rw [match_immRegMem, decide_eq_true_iff] at h; exact dispatch_immRegMem.mpr h
  · rw [match_immReg, decide_eq_true_iff] at h; exact dispatch_immReg.mpr h

theorem classTab_tag_injective : ∀ c ∈ classTab, ∀ c' ∈ classTab, c.tag = c'.tag → c = c' := by decide

/-- No window matches two entries. -/
theorem match_unique (hc : c ∈ classTab) (hc' : c' ∈ classTab) (h : classMatches W c = true)
    (h' : classMatches W c' = true) : c = c' :=
  classTab_tag_injective c hc c' hc' (Option.some.inj ((dispatch_of_match hc h).symm.trans (dispatch_of_match hc' h')))

/-- Settles O6: with one entry at most that matches, the first to match is the same in every order. -/
theorem dispatchOrderIrrelevant : Obligations.DispatchOrderIrrelevant := by
  refine ⟨fun W c c' => match_unique, fun tab W hperm => ?_⟩
  have unique : {c ∈ tab | classMatches W c}.Subsingleton := fun c hc c' hc' =>
    match_unique (hperm.mem_iff.mp hc.1) (hperm.mem_iff.mp hc'.1) hc.2 hc'.2
  exact congrArg (Option.map OpcodeClass.tag) (List.find?_eq_find?_of_perm hperm unique)

/-- Settles O7: the class tests the bits of byte 0 alone. -/
theorem dispatchByByteZero : Obligations.DispatchByByteZero := by
  intro b0 b1
  have hb1 := b1.isLt
  have regMem : (b0.toNat * 256 + b1.toNat) / 1024 = 34 ↔ 0x88 ≤ b0.toNat ∧ b0.toNat ≤ 0x8B := by omega
  have immRegMem : (b0.toNat * 256 + b1.toNat) / 512 = 99 ↔ b0.toNat = 0xC6 ∨ b0.toNat = 0xC7 := by omega
  have immReg : (b0.toNat * 256 + b1.toNat) / 4096 = 11 ↔ 0xB0 ≤ b0.toNat ∧ b0.toNat ≤ 0xBF := by omega
  simp only [dispatch_eq, bytePair_toNat, regMem, immRegMem, immReg]

theorem dispatch_none_iff : dispatch W = none ↔ ∀ c ∈ classTab, classMatches W c = false := by
  rw [dispatch, dispatchIn, Option.map_eq_none_iff, List.find?_eq_none]
  simp only [Bool.not_eq_true]

end Sys2Proof
end

section
/-! PROOFS. The decoder follows the opcode table, row by row (30_encoding.md R79). -/

namespace Sys2Proof

variable {W : Word}

/-! The rows of a class, by their mask and pattern: a mask is a window with the tested bits set. -/

/-- The mask that tests the class RegMemToFromReg and the given bits of `mod` and `rm`. -/
def rmMask (mod : BitVec 2) (rm : BitVec 3) : Word := 0b111111#6 ++ 0#1 ++ 0#1 ++ mod ++ 0#3 ++ rm

theorem rmWindow_and_rmMask (d w : BitVec 1) (mod mod' : BitVec 2) (reg rm rm' : BitVec 3) :
    rmWindow d w mod reg rm &&& rmMask mod' rm' = rmWindow 0#1 0#1 (mod &&& mod') 0#3 (rm &&& rm') := by
  change (0b100010#6 ++ d ++ w ++ mod ++ reg ++ rm) &&& (0b111111#6 ++ 0#1 ++ 0#1 ++ mod' ++ 0#3 ++ rm') = _
  simp only [BitVec.and_append, BitVec.and_zero]
  rfl

theorem rmMask_and_classMask (mod : BitVec 2) (rm : BitVec 3) : rmMask mod rm &&& 0xFC00#16 = 0xFC00#16 := by
  change (0b111111#6 ++ 0#1 ++ 0#1 ++ mod ++ 0#3 ++ rm) &&& (0b111111#6 ++ 0#1 ++ 0#1 ++ 0#2 ++ 0#3 ++ 0#3) = _
  simp only [BitVec.and_append, BitVec.and_zero]
  rfl

/-- A row of RegMemToFromReg is the class with the tested bits of `mod` and `rm` fixed. -/
theorem regMem_row_iff {mod mod' : BitVec 2} {rm rm' : BitVec 3} :
    W &&& rmMask mod' rm' = rmWindow 0#1 0#1 mod 0#3 rm ↔
      dispatch W = some .regMemToFromReg ∧ rmMod W &&& mod' = mod ∧ rmRm W &&& rm' = rm := by
  constructor
  · intro h
    have hclass : dispatch W = some .regMemToFromReg := by
      have classBits := congrArg (· &&& 0xFC00#16) h
      simp only [BitVec.and_assoc, rmMask_and_classMask] at classBits
      rw [dispatch_regMem_iff_mask, classBits, ← dispatch_regMem_iff_mask]
      exact dispatch_rmWindow 0#1 0#1 mod 0#3 rm
    rw [← rmWindow_fields hclass, rmWindow_and_rmMask] at h
    exact ⟨hclass, by simpa using congrArg rmMod h, by simpa using congrArg rmRm h⟩
  · rintro ⟨hclass, rfl, rfl⟩
    rw [← rmWindow_fields hclass, rmWindow_and_rmMask, rmMod_rmWindow, rmRm_rmWindow]

theorem irWindow_and_rowMask (w : BitVec 1) (reg : BitVec 3) (data : Byte) :
    irWindow w reg data &&& 0xF800#16 = irWindow w 0#3 0#8 := by
  change (0b1011#4 ++ w ++ reg ++ data) &&& (0b1111#4 ++ BitVec.allOnes 1 ++ 0#3 ++ 0#8) = _
  simp only [BitVec.and_append, BitVec.and_zero, BitVec.and_allOnes]
  rfl

/-- A row of ImmediateToReg is the class with `w` fixed. -/
theorem immReg_row_iff {w : BitVec 1} :
    W &&& 0xF800#16 = irWindow w 0#3 0#8 ↔ dispatch W = some .immediateToReg ∧ irW W = w := by
  refine ⟨immReg_of_mask, ?_⟩
  rintro ⟨hclass, rfl⟩
  rw [← irWindow_fields hclass, irWindow_and_rowMask, irW_irWindow]

theorem dispatch_immRegMem_iff_mask : dispatch W = some .immediateToRegMem ↔ W &&& 0xFE00#16 = 0xC600#16 := by
  rw [dispatch_immRegMem, ← decide_eq_true_iff (p := W.toNat / 512 = 99), ← match_immRegMem]
  exact beq_iff_eq

/-! The row of a window, by its class and fields. -/

/-- The row of RegMemToFromReg that `mod` and `rm` name. -/
def regMemForm (mod : BitVec 2) (rm : BitVec 3) : Form :=
  if mod = 3#2 then .rr
  else if mod = 1#2 then .m8
  else if mod = 2#2 then .m16
  else if rm = 6#3 then .direct
  else if rm = 7#3 then .m0c
  else if rm.toNat ≤ 3 then .m0a
  else .m0b

/-- The row of ImmediateToReg that `w` names. -/
def immRegForm (w : BitVec 1) : Form := if w = 0#1 then .ir8 else .ir16

/-- The row of a window. -/
def windowForm (W : Word) : Option Form :=
  match dispatch W with
  | some .regMemToFromReg => some (regMemForm (rmMod W) (rmRm W))
  | some .immediateToReg => some (immRegForm (irW W))
  | some .immediateToRegMem => some .irm
  | none => none

theorem windowForm_regMem (hclass : dispatch W = some .regMemToFromReg) :
    windowForm W = some (regMemForm (rmMod W) (rmRm W)) := by simp only [windowForm, hclass]
theorem windowForm_immReg (hclass : dispatch W = some .immediateToReg) :
    windowForm W = some (immRegForm (irW W)) := by simp only [windowForm, hclass]
theorem windowForm_immRegMem (hclass : dispatch W = some .immediateToRegMem) : windowForm W = some .irm := by
  simp only [windowForm, hclass]
theorem windowForm_eq_none : windowForm W = none ↔ dispatch W = none := by
  cases hclass : dispatch W with
  | none => simp only [windowForm, hclass]
  | some tag => cases tag <;> simp only [windowForm, hclass, reduceCtorEq]

/-- The class and the fields behind the row of a window. -/
theorem windowForm_cases {f : Form} (h : windowForm W = some f) :
    (dispatch W = some .regMemToFromReg ∧ regMemForm (rmMod W) (rmRm W) = f) ∨
    (dispatch W = some .immediateToReg ∧ immRegForm (irW W) = f) ∨
    (dispatch W = some .immediateToRegMem ∧ .irm = f) := by
  cases hclass : dispatch W with
  | none => cases (windowForm_eq_none.mpr hclass).symm.trans h
  | some tag =>
    cases tag with
    | regMemToFromReg => exact .inl ⟨rfl, Option.some.inj ((windowForm_regMem hclass).symm.trans h)⟩
    | immediateToReg => exact .inr (.inl ⟨rfl, Option.some.inj ((windowForm_immReg hclass).symm.trans h)⟩)
    | immediateToRegMem => exact .inr (.inr ⟨rfl, Option.some.inj ((windowForm_immRegMem hclass).symm.trans h)⟩)

/-! The rows of one class are none of another's. -/

theorem regMemForm_ne_immRegForm (mod : BitVec 2) (rm : BitVec 3) (w : BitVec 1) :
    regMemForm mod rm ≠ immRegForm w := by
  revert mod rm w; decide

theorem regMemForm_ne_irm (mod : BitVec 2) (rm : BitVec 3) : regMemForm mod rm ≠ .irm := by
  revert mod rm; decide

theorem immRegForm_ne_irm (w : BitVec 1) : immRegForm w ≠ .irm := by
  revert w; decide

theorem immRegForm_injective {w w' : BitVec 1} (h : immRegForm w = immRegForm w') : w = w' := by
  revert w w'; decide

/-- A mask and pattern of RegMemToFromReg that test `mod` and `rm` as a form does are that form's row. -/
theorem regMem_row_form {mod mod' : BitVec 2} {rm rm' : BitVec 3} {f : Form}
    (hfields : ∀ m r, m &&& mod' = mod ∧ r &&& rm' = rm ↔ regMemForm m r = f) (himm : ∀ w, immRegForm w ≠ f)
    (hirm : .irm ≠ f) : W &&& rmMask mod' rm' = rmWindow 0#1 0#1 mod 0#3 rm ↔ windowForm W = some f := by
  rw [regMem_row_iff, hfields]
  constructor
  · rintro ⟨hclass, rfl⟩; exact windowForm_regMem hclass
  · intro h
    rcases windowForm_cases h with hrow | ⟨-, hf⟩ | ⟨-, hf⟩
    · exact hrow
    · exact absurd hf (himm _)
    · exact absurd hf hirm

theorem immReg_row_form {w : BitVec 1} :
    W &&& 0xF800#16 = irWindow w 0#3 0#8 ↔ windowForm W = some (immRegForm w) := by
  rw [immReg_row_iff]
  constructor
  · rintro ⟨hclass, rfl⟩; exact windowForm_immReg hclass
  · intro h
    rcases windowForm_cases h with ⟨-, hf⟩ | ⟨hclass, hf⟩ | ⟨-, hf⟩
    · exact absurd hf (regMemForm_ne_immRegForm _ _ w)
    · exact ⟨hclass, immRegForm_injective hf⟩
    · exact absurd hf.symm (immRegForm_ne_irm w)

theorem immRegMem_row_form : W &&& 0xFE00#16 = 0xC600#16 ↔ windowForm W = some .irm := by
  rw [← dispatch_immRegMem_iff_mask]
  refine ⟨windowForm_immRegMem, fun h => ?_⟩
  rcases windowForm_cases h with ⟨-, hf⟩ | ⟨-, hf⟩ | ⟨hclass, -⟩
  · exact absurd hf (regMemForm_ne_irm _ _)
  · exact absurd hf (immRegForm_ne_irm _)
  · exact hclass

/-- A window matches exactly the row of its form. -/
theorem rowMatches_iff {row : FormRow} (h : row ∈ formTab) :
    rowMatches W row = true ↔ windowForm W = some row.form := by
  rw [rowMatches, beq_iff_eq]
  simp only [formTab, List.mem_cons, List.not_mem_nil, or_false] at h
  rcases h with rfl | rfl | rfl | rfl | rfl | rfl | rfl | rfl | rfl | rfl
  · exact regMem_row_form (mod := 3#2) (mod' := 3#2) (rm := 0#3) (rm' := 0#3) (by decide) (by decide) (by decide)
  · exact regMem_row_form (mod := 0#2) (mod' := 3#2) (rm := 0#3) (rm' := 4#3) (by decide) (by decide) (by decide)
  · exact regMem_row_form (mod := 0#2) (mod' := 3#2) (rm := 4#3) (rm' := 6#3) (by decide) (by decide) (by decide)
  · exact regMem_row_form (mod := 0#2) (mod' := 3#2) (rm := 7#3) (rm' := 7#3) (by decide) (by decide) (by decide)
  · exact regMem_row_form (mod := 0#2) (mod' := 3#2) (rm := 6#3) (rm' := 7#3) (by decide) (by decide) (by decide)
  · exact regMem_row_form (mod := 1#2) (mod' := 3#2) (rm := 0#3) (rm' := 0#3) (by decide) (by decide) (by decide)
  · exact regMem_row_form (mod := 2#2) (mod' := 3#2) (rm := 0#3) (rm' := 0#3) (by decide) (by decide) (by decide)
  · exact immReg_row_form (w := 0#1)
  · exact immReg_row_form (w := 1#1)
  · exact immRegMem_row_form

theorem formTab_form_injective : ∀ r ∈ formTab, ∀ r' ∈ formTab, r.form = r'.form → r = r' := by decide

theorem formTab_complete (f : Form) : ∃ row ∈ formTab, row.form = f := by cases f <;> decide

/-! The decoder's answer, by the row of the window, where four bytes are present. -/

variable {b0 b1 b2 b3 : Byte} {rest : List Byte} {f : Form}

theorem decodeRegMem_form :
    ∃ i r, decodeRegMem W (b2 :: b3 :: rest) = .ok (i, r) ∧ i.form = regMemForm (rmMod W) (rmRm W) := by
  rcases mod_cases (rmMod W) with hmod | hmod | hmod | hmod <;> rw [hmod]
  · refine ⟨_, _, decodeRegMem_noDisp hmod, ?_⟩
    simp only [apply_ite Instr.form]
    rfl
  · exact ⟨_, _, decodeRegMem_m8 hmod, rfl⟩
  · exact ⟨_, _, decodeRegMem_m16 hmod, rfl⟩
  · exact ⟨_, _, decodeRegMem_rr hmod, rfl⟩

theorem decodeImmReg_form :
    ∃ i r, decodeImmReg W (b2 :: b3 :: rest) = .ok (i, r) ∧ i.form = immRegForm (irW W) := by
  rcases bit_cases (irW W) with hw | hw <;> rw [hw]
  · exact ⟨_, _, decodeImmReg_ir8 hw, rfl⟩
  · exact ⟨_, _, decodeImmReg_ir16 hw, rfl⟩

/-- The decoder answers an instruction of the window's row. -/
theorem decode_of_windowForm (h : windowForm (bytePair b0 b1) = some f) :
    ∃ i r, decode (b0 :: b1 :: b2 :: b3 :: rest) = .ok (i, r) ∧ i.form = f := by
  rcases windowForm_cases h with ⟨hclass, rfl⟩ | ⟨hclass, rfl⟩ | ⟨hclass, rfl⟩
  · rw [decode_regMem hclass]; exact decodeRegMem_form
  · rw [decode_immReg hclass]; exact decodeImmReg_form
  · exact ⟨_, _, decode_immRegMem hclass, rfl⟩

theorem decode_form_iff :
    (∃ i r, decode (b0 :: b1 :: b2 :: b3 :: rest) = .ok (i, r) ∧ i.form = f) ↔ windowForm (bytePair b0 b1) = some f := by
  refine ⟨?_, decode_of_windowForm⟩
  rintro ⟨i, r, hok, rfl⟩
  cases hrow : windowForm (bytePair b0 b1) with
  | none => cases (decode_noClass (windowForm_eq_none.mp hrow)).symm.trans hok
  | some g =>
    obtain ⟨j, r', hok', rfl⟩ := decode_of_windowForm (b2 := b2) (b3 := b3) (rest := rest) hrow
    cases hok.symm.trans hok'
    rfl

/-- Settles O8: a window matches the one row of its form, and with four bytes present the decoder answers that form. -/
theorem decoderFollowsTable : Obligations.DecoderFollowsTable := by
  refine ⟨fun b0 b1 b2 b3 rest f => decode_form_iff.trans ⟨fun h => ?_, ?_⟩, fun W r r' hr hr' h h' => ?_⟩
  · obtain ⟨row, hrow, rfl⟩ := formTab_complete f
    exact ⟨row, hrow, rfl, (rowMatches_iff hrow).mpr h⟩
  · rintro ⟨row, hrow, rfl, h⟩
    exact (rowMatches_iff hrow).mp h
  · have forms := ((rowMatches_iff hr).mp h).symm.trans ((rowMatches_iff hr').mp h')
    exact formTab_form_injective r hr r' hr' (Option.some.inj forms)

end Sys2Proof
end

section
/-! PROOFS. A failing step records the spec's failure at the cursor, with its window (44_stream_advance.md R177,
10_state.md R26). -/

namespace Sys2Proof.Machine

variable {s t : State} {W : Word} {c : Nat} {e : ErrRec}

/-! The offset and the window of a failure the spec gives (60_exceptions.md R200 to R203). -/

theorem decodeRM_error (h : decodeRM s W c = .error e) : e.offset = c ∧ e.window = some W := by
  simp only [decodeRM] at h
  split_ifs at h <;> cases h <;> exact ⟨rfl, rfl⟩

theorem decodeIR_error (h : decodeIR s W c = .error e) : e.offset = c ∧ e.window = some W := by
  simp only [decodeIR] at h
  split_ifs at h; cases h; exact ⟨rfl, rfl⟩

/-- A failure has the offset it is found at, and the window there when two bytes remain. -/
theorem decodeAt_error (h : decodeAt s c = .error e) :
    e.offset = c ∧ e.window = if s.streamLen - c < 2 then none else some (windowAt s c) := by
  by_cases hshort : s.streamLen - c < 2
  · cases (decodeAt_short hshort).symm.trans h
    exact ⟨rfl, (if_pos hshort).symm⟩
  · have h2 : 2 ≤ s.streamLen - c := Nat.not_lt.mp hshort
    rw [if_neg hshort]
    cases hclass : dispatch (windowAt s c) with
    | none => cases (decodeAt_noClass h2 hclass).symm.trans h; exact ⟨rfl, rfl⟩
    | some tag =>
      cases tag with
      | regMemToFromReg => exact decodeRM_error ((decodeAt_regMem h2 hclass).symm.trans h)
      | immediateToRegMem => cases (decodeAt_immRegMem h2 hclass).symm.trans h; exact ⟨rfl, rfl⟩
      | immediateToReg => exact decodeIR_error ((decodeAt_immReg h2 hclass).symm.trans h)

/-- The next state of an enabled block, with what the spec decides at the cursor. -/
theorem step_enabled_cases (hen : s.enabled) (h : step s = .next t) :
    (∃ e, decodeAt s s.cursor = .error e ∧ t = { s with err := some e, status := .failed }) ∨
    (∃ rec, decodeAt s s.cursor = .ok rec ∧ t = s.emitAdvance rec) := by
  obtain rfl := Host.Outcome.next.inj (h.symm.trans (step_eq_refStep hen))
  cases hdec : decodeAt s s.cursor with
  | error e => exact .inl ⟨e, rfl, by rw [refStep, hdec]⟩
  | ok rec => exact .inr ⟨rec, rfl, refStep_record hdec⟩

/-- Settles O28: class by class, the decoded instruction does what the spec's class decode says. -/
theorem stepIsSpecStep : Obligations.StepIsSpecStep :=
  fun _ hen => step_eq_refStep hen

/-- Settles O30: a step that fails is the spec's failing step, whose failure has the cursor as its offset. -/
theorem failingStepWritesErrOnly : Obligations.FailingStepWritesErrOnly := by
  intro s t hen hstep hfailed
  rcases step_enabled_cases hen hstep with ⟨e, hdec, rfl⟩ | ⟨rec, -, rfl⟩
  · have offset_eq : e.offset = s.cursor := (decodeAt_error hdec).1
    exact ⟨e, hdec, offset_eq, offset_eq.symm, rfl, rfl⟩
  · exact absurd hfailed (emitAdvance_not_failed s rec)

/-- A failing step records the window at the cursor when two bytes remain. -/
theorem window_of_step_fails {kind : ErrKind} {window : Option Word} (hen : s.enabled)
    (h : step s = .next (s.enterFailure kind window)) : window = s.errWindow := by
  rcases step_enabled_cases hen h with ⟨e, hdec, hnext⟩ | ⟨rec, -, hnext⟩
  · have err_eq : some ⟨kind, s.cursor, window⟩ = some e := congrArg State.err hnext
    cases err_eq
    exact (decodeAt_error hdec).2
  · have status_eq : Status.failed = (s.emitAdvance rec).status := congrArg State.status hnext
    exact absurd status_eq.symm (emitAdvance_not_failed s rec)

end Sys2Proof.Machine
end

section
/-! PROOFS. The block's invariant (10_state.md R35). -/

namespace Sys2Proof.Machine

variable {s t : State}

theorem resetStatus_eq_done {n : Nat} : resetStatus n = .done ↔ n = 0 := by
  unfold resetStatus; split <;> simp [*]

theorem resetStatus_eq_scanning {n : Nat} : resetStatus n = .scanning ↔ n ≠ 0 := by
  unfold resetStatus; split <;> simp [*]

/-! What establishes the invariant: the reset values, an emitted record, an entered failure. -/

/-- The reset values over a canonical stream meet the invariant. -/
theorem holdReset_inv (hmem : s.stream.wf s.streamLen) : s.holdReset.Inv where
  memory := hmem
  cursorInStream := Nat.zero_le _
  cursorIsLogLength := rfl
  doneAtEnd h := ⟨(resetStatus_eq_done.mp h).symm, rfl⟩
  scanningInside h := ⟨Nat.pos_of_ne_zero (resetStatus_eq_scanning.mp h), rfl⟩
  failedInside h := absurd h (resetStatus_not_failed _)
  recordsWf := by simp
  heldInReset _ := rfl

theorem logLen_append (log : List Record) (rec : Record) : logLen (log ++ [rec]) = logLen log + rec.len := by
  simp [logLen]

/-- A well-formed record that fits keeps the invariant. -/
theorem emitAdvance_inv {rec : Record} (hs : s.Inv) (hen : s.enabled) (hwf : recordWf rec = true)
    (hfit : rec.len ≤ s.avail) : (s.emitAdvance rec).Inv := by
  obtain ⟨hinside, herr⟩ := hs.scanningInside hen.2
  have hle : s.cursor + rec.len ≤ s.streamLen := by rw [State.avail] at hfit; omega
  exact {
    memory := hs.memory
    cursorInStream := hle
    cursorIsLogLength := by
      rw [emitAdvance_cursor, emitAdvance_outLog, logLen_append, ← hs.cursorIsLogLength]
    doneAtEnd := fun h => by
      rw [emitAdvance_status] at h
      split_ifs at h with hend
      exact ⟨hend, herr⟩
    scanningInside := fun h => by
      rw [emitAdvance_status] at h
      split_ifs at h with hend
      exact ⟨Nat.lt_of_le_of_ne hle hend, herr⟩
    failedInside := fun h => absurd h (emitAdvance_not_failed s rec)
    recordsWf := fun r hr => by
      rw [emitAdvance_outLog, List.mem_append, List.mem_singleton] at hr
      rcases hr with hr | rfl
      · exact hs.recordsWf r hr
      · exact hwf
    heldInReset := fun h => by cases hen.1.symm.trans h }

/-- A failure entered with the window at the cursor keeps the invariant. -/
theorem enterFailure_inv (hs : s.Inv) (hen : s.enabled) (kind : ErrKind) :
    (s.enterFailure kind s.errWindow).Inv where
  memory := hs.memory
  cursorInStream := hs.cursorInStream
  cursorIsLogLength := hs.cursorIsLogLength
  doneAtEnd := nofun
  scanningInside := nofun
  failedInside _ := ⟨(hs.scanningInside hen.2).1, kind, rfl⟩
  recordsWf := hs.recordsWf
  heldInReset h := by cases hen.1.symm.trans h

/-- Every step keeps the invariant. -/
theorem step_inv (hs : s.Inv) (h : step s = .next t) : t.Inv := by
  rcases step_next_cases h with ⟨-, rfl⟩ | ⟨-, -, rfl⟩ | ⟨hen, kind, window, rfl⟩ | ⟨hen, rec, hwf, -, -, hfit, rfl⟩
  · exact holdReset_inv hs.memory
  · exact hs
  · rw [window_of_step_fails hen h]; exact enterFailure_inv hs hen kind
  · exact emitAdvance_inv hs hen hwf hfit

/-- Settles O48: a step holds the reset values, rests, enters the spec's failure at the cursor, or emits a well-formed
record that fits, and each keeps the invariant. -/
theorem invKeptByStep : Obligations.InvKeptByStep :=
  fun _ _ hs h => step_inv hs h

/-- Asserting reset and loading leave the reset values, and deasserting reset changes the input alone. -/
theorem hostMove_inv {cw : Nat} {m : HostMove} (hs : s.Inv) (h : hostMove cw m s = some t) : t.Inv := by
  rcases hostMove_cases h with ⟨-, rfl⟩ | ⟨-, rfl⟩ | ⟨bytes, -, -, -, rfl⟩
  · exact holdReset_inv (s := { s with resetLine := true }) hs.memory
  · exact { hs with heldInReset := nofun }
  · exact holdReset_inv (Memory.ofBytes_wf bytes)

/-- Settles O57: each of the three moves keeps the invariant. -/
theorem invKeptByHost : Obligations.InvKeptByHost :=
  fun _ _ _ _ hs h => hostMove_inv hs h

theorem reset_inv : State.reset.Inv := holdReset_inv (s := State.reset) reset_memory_wf

theorem resetState_inv (bytes : List Byte) : (resetState bytes).Inv := holdReset_inv (Memory.ofBytes_wf bytes)

/-- Settles O47: the state right after reset has the reset values over a canonical stream. -/
theorem invAtReset : Obligations.InvAtReset := ⟨reset_inv, resetState_inv⟩

theorem reachable_inv {cw : Nat} (h : Reachable cw s) : s.Inv := by
  induction h with
  | atReset => exact reset_inv
  | byStep _ hstep ih => exact step_inv ih hstep
  | byHost m _ hmove ih => exact hostMove_inv ih hmove

/-- Settles O49: the invariant holds at reset, and every step and every host move keeps it. -/
theorem invOfReachable : Obligations.InvOfReachable := fun _ _ h => reachable_inv h

/-! The width of the host's registers (10_state.md R25). -/

/-- A host loads no more bytes than `CURSOR_W` can count. -/
theorem reachable_streamLen_le {cw : Nat} (h : Reachable cw s) : s.streamLen ≤ 2 ^ cw - 1 := by
  induction h with
  | atReset => exact Nat.zero_le _
  | byStep _ hstep ih => rwa [(step_sameInput hstep).2]
  | byHost m _ hmove ih =>
    rcases hostMove_cases hmove with ⟨-, rfl⟩ | ⟨-, rfl⟩ | ⟨bytes, -, -, hlen, rfl⟩
    · exact ih
    · exact ih
    · exact hlen

/-- Under the invariant a recorded failure has the cursor as its offset. -/
theorem State.Inv.err_offset {e : ErrRec} (hs : s.Inv) (he : s.err = some e) : e.offset = s.cursor := by
  cases hst : s.status with
  | scanning => cases (hs.scanningInside hst).2.symm.trans he
  | done => cases (hs.doneAtEnd hst).2.symm.trans he
  | failed =>
    obtain ⟨-, kind, herr⟩ := hs.failedInside hst
    cases herr.symm.trans he
    rfl

/-- Settles O44: `N` is below `2^CURSOR_W`, and the invariant bounds the cursor and the failing offset by `N`. -/
theorem cursorNeverWraps : Obligations.CursorNeverWraps := by
  intro cw s h
  have hs := reachable_inv h
  have hN : s.streamLen < 2 ^ cw := by
    have hload := reachable_streamLen_le h
    have hpos := Nat.two_pow_pos cw
    omega
  have hcursor : s.cursor < 2 ^ cw := hs.cursorInStream.trans_lt hN
  refine ⟨BitVec.toNat_ofNat .. ▸ Nat.mod_eq_of_lt hcursor, BitVec.toNat_ofNat .. ▸ Nat.mod_eq_of_lt hN, ?_⟩
  cases herr : s.err with
  | none => simp [regErrOffset, herr]
  | some e =>
    have offset_lt : e.offset < 2 ^ cw := (hs.err_offset herr).symm ▸ hcursor
    simpa [regErrOffset, herr] using Nat.mod_eq_of_lt offset_lt

end Sys2Proof.Machine
end

section
/-! PROOFS. The log is the decode of the stream before the cursor (20_memory.md R63, 60_exceptions.md R205). -/

namespace Sys2Proof.Machine

variable {s t : State}

/-! What a log decodes depends on the stream and `N` alone. -/

theorem SameInput.decodeAt_eq (h : SameInput s t) (c : Nat) : decodeAt t c = decodeAt s c := by
  cases s; cases t
  obtain ⟨hstream, hN⟩ := h
  cases hstream; cases hN; rfl

theorem SameInput.logDecodes_iff (h : SameInput s t) {log : List Record} {c c' : Nat} :
    logDecodes t c log c' ↔ logDecodes s c log c' := by
  induction log generalizing c with
  | nil => exact Iff.rfl
  | cons r rs ih => rw [logDecodes, logDecodes, h.decodeAt_eq, ih]

/-- A log that decodes up to an offset goes on with the record there. -/
theorem logDecodes_append {log : List Record} {rec : Record} {c c' : Nat} (hlog : logDecodes s c log c')
    (hrec : decodeAt s c' = .ok rec) : logDecodes s c (log ++ [rec]) (c' + rec.len) := by
  induction log generalizing c with
  | nil => obtain rfl : c = c' := hlog; exact ⟨hrec, rfl⟩
  | cons r rs ih =>
    obtain ⟨hr, hrs⟩ := hlog
    exact ⟨hr, ih hrs⟩

theorem holdReset_precise (s : State) : s.holdReset.Precise :=
  ⟨rfl, fun h => absurd h (resetStatus_not_failed _)⟩

/-- Every step keeps the history precise. -/
theorem step_precise (hs : s.Precise) (h : step s = .next t) : t.Precise := by
  have input := step_sameInput h
  have ⟨hlog, _⟩ := hs
  rcases step_cases s with ⟨-, hnext⟩ | ⟨-, -, hnext⟩ | ⟨hen, -⟩
  · obtain rfl := Host.Outcome.next.inj (h.symm.trans hnext)
    exact holdReset_precise s
  · obtain rfl := Host.Outcome.next.inj (h.symm.trans hnext)
    exact hs
  · rcases step_enabled_cases hen h with ⟨e, herr, rfl⟩ | ⟨rec, hrec, rfl⟩
    · exact ⟨input.logDecodes_iff.mpr hlog, fun _ => ⟨e, rfl, (input.decodeAt_eq s.cursor).trans herr⟩⟩
    · exact ⟨input.logDecodes_iff.mpr (logDecodes_append hlog hrec), fun hf => absurd hf (emitAdvance_not_failed s rec)⟩

/-- Settles O51: an enabled step appends the record, or records the failure, that the spec decides at the cursor. -/
theorem logIsDecodeKeptByStep : Obligations.LogIsDecodeKeptByStep :=
  fun _ _ hs h => step_precise hs h

theorem resetState_precise (bytes : List Byte) : (resetState bytes).Precise := holdReset_precise _

/-- Settles O52: the log is empty, the cursor 0, and the status is not Failed. -/
theorem logIsDecodeAtReset : Obligations.LogIsDecodeAtReset :=
  ⟨holdReset_precise State.reset, resetState_precise⟩

end Sys2Proof.Machine
end

section
/-! PROOFS. Runs from reset and the functional result (44_stream_advance.md R179, R181). -/

namespace Sys2Proof.Machine

variable {s t : State}

/-- No step faults or is refused. -/
theorem step_total (s : State) : ∃ t, step s = .next t := by
  rcases step_cases s with ⟨-, h⟩ | ⟨-, -, h⟩ | ⟨-, ⟨_, _, h⟩ | ⟨_, -, -, -, -, h⟩⟩ <;> exact ⟨_, h⟩

theorem runSteps_total (k : Nat) (s : State) : ∃ t, runSteps k s = .next t := by
  induction k generalizing s with
  | zero => exact ⟨s, rfl⟩
  | succ k ih =>
    obtain ⟨u, hstep⟩ := step_total s
    obtain ⟨t, hrun⟩ := ih u
    exact ⟨t, by rw [runSteps, hstep]; exact hrun⟩

/-- What every step keeps, every run keeps. -/
theorem runSteps_keeps {P : State → Prop} (keeps : ∀ {s t}, P s → step s = .next t → P t) {k : Nat} (hs : P s)
    (h : runSteps k s = .next t) : P t :=
  runSteps_related (R := fun s t => P s → P t) (fun _ => id) (fun hst htu => htu ∘ hst) (fun hstep hs => keeps hs hstep)
    h hs

theorem step_resetLine (h : step s = .next t) : t.resetLine = s.resetLine := by
  rcases step_next_cases h with ⟨-, rfl⟩ | ⟨-, -, rfl⟩ | ⟨-, _, _, rfl⟩ | ⟨-, _, -, -, -, -, rfl⟩ <;> rfl

/-! Within a run the log grows at its end only (10_state.md R35). -/

/-- The history of `t` continues that of `s`, with reset deasserted. -/
def Continues (s t : State) : Prop :=
  s.resetLine = false → t.resetLine = false ∧ s.outLog <+: t.outLog ∧ s.cursor ≤ t.cursor

theorem Continues.refl (s : State) : Continues s s := fun hr => ⟨hr, List.prefix_rfl, le_rfl⟩

theorem Continues.trans {s t u : State} (hst : Continues s t) (htu : Continues t u) : Continues s u := by
  intro hr
  obtain ⟨hrt, hlog, hcur⟩ := hst hr
  obtain ⟨hru, hlog', hcur'⟩ := htu hrt
  exact ⟨hru, hlog.trans hlog', hcur.trans hcur'⟩

theorem step_continues (h : step s = .next t) : Continues s t := by
  intro hr
  refine ⟨(step_resetLine h).trans hr, ?_⟩
  rcases step_next_cases h with ⟨hreset, -⟩ | ⟨-, -, rfl⟩ | ⟨-, kind, window, rfl⟩ | ⟨-, rec, -, -, -, -, rfl⟩
  · cases hr.symm.trans hreset
  · exact ⟨List.prefix_rfl, le_rfl⟩
  · exact ⟨List.prefix_rfl, le_rfl⟩
  · exact ⟨List.prefix_append .., Nat.le_add_right ..⟩

/-- Settles O50: each step leaves the log and the cursor, or appends a record and moves the cursor past it. -/
theorem logOnlyGrows : Obligations.LogOnlyGrows := by
  intro k s t hr h
  have hcont : Continues s t := runSteps_related Continues.refl Continues.trans step_continues h
  exact (hcont hr).2

/-! A run ends: a step that goes on scanning consumes two bytes at the least (44_stream_advance.md R179). -/

theorem step_still_scanning (hr : s.resetLine = false) (h : step s = .next t) (hst : t.status = .scanning) :
    s.status = .scanning ∧ s.cursor + 2 ≤ t.cursor := by
  rcases step_next_cases h with ⟨hreset, -⟩ | ⟨-, hrest, rfl⟩ | ⟨-, kind, window, rfl⟩ | ⟨hen, rec, -, h2, -, -, rfl⟩
  · cases hr.symm.trans hreset
  · exact absurd hst hrest
  · cases hst
  · exact ⟨hen.2, Nat.add_le_add_left h2 s.cursor⟩

theorem runSteps_still_scanning {k : Nat} (hr : s.resetLine = false) (h : runSteps k s = .next t)
    (hst : t.status = .scanning) : s.status = .scanning ∧ s.cursor + 2 * k ≤ t.cursor := by
  induction k generalizing s with
  | zero => obtain rfl := Host.Outcome.next.inj h; exact ⟨hst, le_rfl⟩
  | succ k ih =>
    obtain ⟨u, hstep, hrun⟩ := runSteps_succ_next h
    obtain ⟨hu, hrest⟩ := ih ((step_resetLine hstep).trans hr) hrun
    obtain ⟨hs, hfirst⟩ := step_still_scanning hr hstep hu
    exact ⟨hs, by omega⟩

/-- After `ceil(N / 2)` steps the block no longer scans: it would have consumed `N` bytes, and it scans strictly inside
the stream. -/
theorem run_not_scanning {bytes : List Byte} (h : runSteps (stepBound bytes.length) (resetState bytes) = .next t) :
    t.status ≠ .scanning := by
  intro hst
  have hinv : t.Inv := runSteps_keeps step_inv (resetState_inv bytes) h
  have hN : t.streamLen = bytes.length := (runSteps_sameInput h).2
  have consumed := (runSteps_still_scanning rfl h hst).2
  have inside := (hinv.scanningInside hst).1
  rw [stepBound] at consumed
  omega

/-- Settles O53: the end state no longer scans, and the invariant says where Done and Failed leave the cursor. -/
theorem runTerminates : Obligations.RunTerminates := by
  intro bytes
  obtain ⟨t, hrun⟩ := runSteps_total (stepBound bytes.length) (resetState bytes)
  have hinv : t.Inv := runSteps_keeps step_inv (resetState_inv bytes) hrun
  have hN : t.streamLen = bytes.length := (runSteps_sameInput hrun).2
  refine ⟨t, hrun, ?_⟩
  rw [← hN]
  cases hst : t.status with
  | scanning => exact absurd hst (run_not_scanning hrun)
  | done => exact .inl ⟨rfl, hinv.doneAtEnd hst⟩
  | failed =>
    obtain ⟨hinside, kind, herr⟩ := hinv.failedInside hst
    exact .inr ⟨rfl, hinside, _, herr, rfl⟩

theorem decodeStream_eq {bytes : List Byte} (h : runToEnd bytes = .next t) : decodeStream bytes = resultOf t := by
  rw [decodeStream, h]

theorem resultOf_done (h : t.status = .done) : resultOf t = some (.ok t.outLog) := by
  rw [resultOf, h]

theorem resultOf_failed {e : ErrRec} (h : t.status = .failed) (he : t.err = some e) : resultOf t = some (.error e) := by
  rw [resultOf, h, he]; rfl

/-- Settles O54: the run ends in Done or Failed, and its history is precise. -/
theorem functionalResultIsDecode : Obligations.FunctionalResultIsDecode := by
  intro bytes
  obtain ⟨t, hrun, hend⟩ := runTerminates bytes
  have input : SameInput (resetState bytes) t := runSteps_sameInput hrun
  obtain ⟨hlog, hfail⟩ : t.Precise := runSteps_keeps step_precise (resetState_precise bytes) hrun
  rw [input.logDecodes_iff] at hlog
  rw [decodeStream_eq hrun]
  rcases hend with ⟨hdone, hcursor, -⟩ | ⟨hfailed, -, e, herr, hoffset⟩
  · exact ⟨_, resultOf_done hdone, hcursor ▸ hlog⟩
  · obtain ⟨e', herr', hdec⟩ := hfail hfailed
    cases herr.symm.trans herr'
    rw [input.decodeAt_eq, ← hoffset] at hdec
    exact ⟨_, resultOf_failed hfailed herr, t.outLog, hoffset ▸ hlog, hdec⟩

/-- Settles O55: over no bytes the bound on the steps is 0 and the end state is the reset state. -/
theorem emptyStreamIsDone : Obligations.EmptyStreamIsDone := by
  have hdone : (resetState []).status = .done := resetStatus_eq_done.mpr rfl
  exact ⟨hdone, rfl, (decodeStream_eq (bytes := []) rfl).trans (resultOf_done hdone)⟩

end Sys2Proof.Machine
end

section
/-! PROOFS. The rows whose fields decide a failure, by mask and pattern (30_encoding.md R79, R80). -/

namespace Sys2Proof

variable {W : Word}

theorem regMem_mod_iff_mask {mod : BitVec 2} :
    W &&& 0xFCC0#16 = rmWindow 0#1 0#1 mod 0#3 0#3 ↔ dispatch W = some .regMemToFromReg ∧ rmMod W = mod := by
  refine ⟨regMem_of_mask, fun ⟨hclass, hmod⟩ => ?_⟩
  exact (regMem_row_iff (mod' := 3#2) (rm' := 0#3)).mpr ⟨hclass, hmod ▸ BitVec.and_allOnes, BitVec.and_zero⟩

theorem direct_iff_mask :
    W &&& 0xFCC7#16 = 0x8806#16 ↔ dispatch W = some .regMemToFromReg ∧ rmMod W = 0#2 ∧ rmRm W = 6#3 := by
  have hrow := regMem_row_iff (W := W) (mod := 0#2) (mod' := BitVec.allOnes 2) (rm := 6#3) (rm' := BitVec.allOnes 3)
  rwa [BitVec.and_allOnes, BitVec.and_allOnes] at hrow

/-- The forms with no decode. -/
theorem noDecode_iff :
    noDecode W = true ↔ dispatch W = some .immediateToRegMem ∨
      (dispatch W = some .regMemToFromReg ∧ rmMod W = 0#2 ∧ rmRm W = 6#3) := by
  cases hclass : dispatch W with
  | none => simp [noDecode, hclass]
  | some tag => cases tag <;> simp [noDecode, hclass]

/-- A form with a decode needs the bytes of its length. -/
theorem bytesNeeded_of_lengthOf {n : Nat} (hdec : noDecode W = false) (hlen : lengthOf W = some n) :
    bytesNeeded W = some n := by
  cases hclass : dispatch W with
  | none => simp [lengthOf, hclass] at hlen
  | some tag => simpa [bytesNeeded, hclass, hdec] using hlen

/-- A form with a decode has a length. -/
theorem lengthOf_of_decode (hclass : dispatch W ≠ none) (hdec : noDecode W = false) : ∃ n, lengthOf W = some n := by
  cases hd : dispatch W with
  | none => exact absurd hd hclass
  | some tag =>
    cases tag with
    | regMemToFromReg => exact ⟨_, lengthOf_regMem hd⟩
    | immediateToRegMem => cases hdec.symm.trans (noDecode_iff.mpr (.inl hd))
    | immediateToReg => exact ⟨_, lengthOf_immReg hd⟩

/-- No class is none of the three. -/
theorem dispatch_none_iff_masks :
    dispatch W = none ↔
      W &&& 0xFC00#16 ≠ 0x8800#16 ∧ W &&& 0xFE00#16 ≠ 0xC600#16 ∧ W &&& 0xF000#16 ≠ 0xB000#16 := by
  simp only [ne_eq, ← dispatch_regMem_iff_mask, ← dispatch_immRegMem_iff_mask, ← dispatch_immReg_iff_mask]
  cases hclass : dispatch W with
  | none => simp
  | some tag => cases tag <;> simp

/-- The rows longer than the bytes left, where at least the window is left: the ones with a displacement, and the
16-bit immediate. -/
theorem exceeds_lengthOf_iff {avail : Nat} (h2 : 2 ≤ avail) :
    (∃ n, lengthOf W = some n ∧ avail < n) ↔
      ((dispatch W = some .regMemToFromReg ∧ rmMod W = 1#2) ∧ avail < 3) ∨
      ((dispatch W = some .regMemToFromReg ∧ rmMod W = 2#2) ∧ avail < 4) ∨
      ((dispatch W = some .immediateToReg ∧ irW W = 1#1) ∧ avail < 3) := by
  cases hclass : dispatch W with
  | none => simp [lengthOf, hclass]
  | some tag =>
    cases tag with
    | regMemToFromReg =>
      rw [lengthOf_regMem hclass]
      rcases mod_cases (rmMod W) with hmod | hmod | hmod | hmod <;> rw [hmod]
      · simp [regMemExtra]; omega
      · simp [regMemExtra]
      · simp [regMemExtra]
      · simp [regMemExtra]; omega
    | immediateToRegMem => simp [lengthOf, hclass]
    | immediateToReg =>
      rw [lengthOf_immReg hclass]
      rcases bit_cases (irW W) with hw | hw <;> rw [hw]
      · simp; omega
      · simp

end Sys2Proof
end

section
/-! PROOFS. When a step fails and with what (60_exceptions.md R201 to R203, R210; 30_encoding.md R80). -/

namespace Sys2Proof.Machine

variable {s t : State} {n : Nat}

/-! The step, by the first check that decides it (92_eei_decisions.md D5). -/

section step
variable (hen : s.enabled)
include hen

theorem step_short (h : s.avail < 2) : step s = .next (failedWith s .truncatedStream none) :=
  step_rejected hen (decode_remaining_short h)

theorem step_noClass (h2 : 2 ≤ s.avail) (hclass : dispatch (windowAt s s.cursor) = none) :
    step s = .next (failedWith s .unsupportedOpcode (some (windowAt s s.cursor))) :=
  step_rejected hen (decode_remaining_noClass h2 hclass)

theorem step_noDecode (h2 : 2 ≤ s.avail) (hdec : noDecode (windowAt s s.cursor) = true) :
    step s = .next (failedWith s .notImplemented (some (windowAt s s.cursor))) := by
  rw [step_eq_refStep hen]
  rcases noDecode_iff.mp hdec with hclass | ⟨hclass, hmod, hrm⟩
  · rw [refStep_failure (decodeAt_immRegMem h2 hclass)]
  · rw [refStep_failure ((decodeAt_regMem h2 hclass).trans (decodeRM_direct hmod hrm))]

theorem step_ir8_emits (hclass : dispatch (windowAt s s.cursor) = some .immediateToReg)
    (hw : irW (windowAt s s.cursor) = 0#1) (h2 : 2 ≤ s.avail) :
    step s = .next (emitted s (.reg (regOf (irReg (windowAt s s.cursor)) 0#1))
      (.imm (sext16 (irData (windowAt s s.cursor)))) 2) := by
  have hdec := decode_remaining_immReg h2 hclass
  rw [decodeImmReg_ir8 hw] at hdec
  exact (step_decoded hen hdec).trans (exec_movIR8 h2)

theorem step_ir16_emits (hclass : dispatch (windowAt s s.cursor) = some .immediateToReg)
    (hw : irW (windowAt s s.cursor) = 1#1) (h3 : 3 ≤ s.avail) :
    ∃ v, step s = .next (emitted s (.reg (regOf (irReg (windowAt s s.cursor)) 1#1)) (.imm v) 3) := by
  have hdec := decode_remaining_immReg (by omega) hclass
  rw [remaining_drop h3, decodeImmReg_ir16 hw] at hdec
  exact ⟨_, (step_decoded hen hdec).trans (exec_movIR16 h3)⟩

/-- An instruction with a decode that fits is emitted with its window's length. -/
theorem step_fits_emits (hdec : noDecode (windowAt s s.cursor) = false)
    (hlen : lengthOf (windowAt s s.cursor) = some n) (hfit : n ≤ s.avail) :
    ∃ dst src, step s = .next (emitted s dst src n) := by
  cases hclass : dispatch (windowAt s s.cursor) with
  | none => cases (lengthOf_none (by simp [hclass]) (by simp [hclass])).symm.trans hlen
  | some tag =>
    cases tag with
    | regMemToFromReg =>
      obtain rfl := Option.some.inj ((lengthOf_regMem hclass).symm.trans hlen)
      rcases mod_cases (rmMod (windowAt s s.cursor)) with hmod | hmod | hmod | hmod <;> rw [hmod] at hfit ⊢
      · have not_direct : rmRm (windowAt s s.cursor) ≠ 6#3 := fun hrm => by
          cases hdec.symm.trans (noDecode_iff.mpr (.inr ⟨hclass, hmod, hrm⟩))
        exact step_mod00_emits hen hclass hmod not_direct hfit
      · exact step_mod01_emits hen hclass hmod hfit
      · exact step_mod10_emits hen hclass hmod hfit
      · exact step_mod11_emits hen hclass hmod hfit
    | immediateToRegMem => cases hdec.symm.trans (noDecode_iff.mpr (.inl hclass))
    | immediateToReg =>
      obtain rfl := Option.some.inj ((lengthOf_immReg hclass).symm.trans hlen)
      rcases bit_cases (irW (windowAt s s.cursor)) with hw | hw <;> rw [hw] at hfit ⊢
      · exact ⟨_, _, step_ir8_emits hen hclass hw hfit⟩
      · obtain ⟨v, hemit⟩ := step_ir16_emits hen hclass hw hfit
        exact ⟨_, _, hemit⟩

end step

/-- Settles O34: the fetch makes the checks in this order, and an instruction that passes them all is emitted. -/
theorem failurePrecedence : Obligations.FailurePrecedence := by
  intro s hen
  split_ifs with hshort hclass hdec
  · exact step_short hen hshort
  · exact step_noClass hen (Nat.not_lt.mp hshort) hclass
  · exact step_noDecode hen (Nat.not_lt.mp hshort) hdec
  · rw [Bool.not_eq_true] at hdec
    obtain ⟨n, hlen⟩ := lengthOf_of_decode hclass hdec
    refine ⟨n, hlen, ?_⟩
    split_ifs with htrunc
    · exact step_truncated hen (Nat.not_lt.mp hshort) (bytesNeeded_of_lengthOf hdec hlen) htrunc
    · exact step_fits_emits hen hdec hlen (Nat.not_lt.mp htrunc)

/-- Settles O31: no entry matches exactly when the dispatch answers no class, which byte 0 decides. -/
theorem unsupportedOpcodeFails : Obligations.UnsupportedOpcodeFails := by
  refine ⟨fun s hen h2 hnone => step_noClass hen h2 (dispatch_none_iff.mpr hnone), fun b0 b1 => ?_, fun s window => rfl⟩
  rw [← dispatch_none_iff, dispatchByByteZero b0 b1]
  split_ifs with hrm hirm hir
  · exact iff_of_false nofun fun h => h.1 hrm
  · exact iff_of_false nofun fun h => not_or.mpr h.2.2 hirm
  · exact iff_of_false nofun fun h => h.2.1 hir
  · exact iff_of_true rfl ⟨hrm, hir, not_or.mp hirm⟩

/-- Settles O32: the two causes are the forms with no decode. -/
theorem notImplementedCauses : Obligations.NotImplementedCauses :=
  ⟨fun _ hen h2 hcause => step_noDecode hen h2 (noDecode_iff.mpr hcause), fun _ _ => rfl⟩

/-- Settles O33: one byte left builds no window, and a length beyond the bytes left fails with the window. -/
theorem truncatedStreamCauses : Obligations.TruncatedStreamCauses := by
  refine ⟨fun s hen h1 => step_short hen (by omega), fun s n hen h2 hdec hlen hlt => ?_, fun s window => rfl⟩
  exact step_truncated hen h2 (bytesNeeded_of_lengthOf hdec hlen) hlt

/-- Settles O17: the form fails in any state, and its mask names a form with no decode. -/
theorem movDirectFails : Obligations.MovDirectFails :=
  ⟨fun _ _ _ _ => rfl, fun _ hen h2 hmask => step_noDecode hen h2 (noDecode_iff.mpr (.inr (direct_iff_mask.mp hmask)))⟩

/-- Settles O22: the form fails in any state, and its mask names a class with no decode. -/
theorem movImmediateToMemoryFails : Obligations.MovImmediateToMemoryFails :=
  ⟨fun _ _ _ => rfl,
    fun _ hen h2 hmask => step_noDecode hen h2 (noDecode_iff.mpr (.inl (dispatch_immRegMem_iff_mask.mpr hmask)))⟩

/-- Settles O36: a read outside faults, the short streams fail before any read, and every step has a next state. -/
theorem noReadOutsideStream : Obligations.NoReadOutsideStream := by
  refine ⟨fun s a => memRead_outside, fun s hen hshort => ?_, step_total⟩
  by_cases h : s.avail < 2
  · exact ⟨_, step_short hen h⟩
  · obtain ⟨hdec, n, hlen, hlt⟩ := hshort.resolve_left h
    exact ⟨_, step_truncated hen (Nat.not_lt.mp h) (bytesNeeded_of_lengthOf hdec hlen) hlt⟩

theorem emitted_not_failed (dst src : Operand) : (emitted s dst src n).status ≠ .failed :=
  emitAdvance_not_failed s ⟨.mov, dst, src, n⟩

/-- A step fails exactly when one of its four checks does. -/
theorem step_failed_iff (hen : s.enabled) (h : step s = .next t) :
    t.status = .failed ↔
      s.avail < 2 ∨ dispatch (windowAt s s.cursor) = none ∨ noDecode (windowAt s s.cursor) = true ∨
      ∃ n, lengthOf (windowAt s s.cursor) = some n ∧ s.avail < n := by
  have checks := failurePrecedence s hen
  split_ifs at checks with hshort hclass hdec
  · cases checks.symm.trans h; exact ⟨fun _ => .inl hshort, fun _ => rfl⟩
  · cases checks.symm.trans h; exact ⟨fun _ => .inr (.inl hclass), fun _ => rfl⟩
  · cases checks.symm.trans h; exact ⟨fun _ => .inr (.inr (.inl hdec)), fun _ => rfl⟩
  · obtain ⟨n, hlen, hlast⟩ := checks
    split_ifs at hlast with htrunc
    · cases hlast.symm.trans h; exact ⟨fun _ => .inr (.inr (.inr ⟨n, hlen, htrunc⟩)), fun _ => rfl⟩
    · obtain ⟨dst, src, hemit⟩ := hlast
      cases hemit.symm.trans h
      refine ⟨fun hf => absurd hf (emitted_not_failed dst src), ?_⟩
      rintro (hf | hf | hf | ⟨m, hm, hlt⟩)
      · exact absurd hf hshort
      · exact absurd hf hclass
      · exact absurd hf hdec
      · cases hlen.symm.trans hm; exact absurd hlt htrunc

/-- Settles O35: the masks name the class and fields of each check. -/
theorem failsExactlyOutsideSubset : Obligations.FailsExactlyOutsideSubset := by
  intro s t hen h
  have m8 : windowAt s s.cursor &&& 0xFCC0#16 = 0x8840#16 ↔ _ := regMem_mod_iff_mask (mod := 1#2)
  have m16 : windowAt s s.cursor &&& 0xFCC0#16 = 0x8880#16 ↔ _ := regMem_mod_iff_mask (mod := 2#2)
  have ir16 : windowAt s s.cursor &&& 0xF800#16 = 0xB800#16 ↔ _ := immReg_row_iff (w := 1#1)
  rw [step_failed_iff hen h, dispatch_none_iff_masks, noDecode_iff, dispatch_immRegMem_iff_mask, ← direct_iff_mask,
    m8, m16, ir16]
  by_cases hshort : s.avail < 2
  · exact iff_of_true (.inl hshort) (.inl hshort)
  · rw [exceeds_lengthOf_iff (Nat.not_lt.mp hshort), or_assoc]

end Sys2Proof.Machine
end

section
/-! PROOFS. Register mode encodes back to its window (41_mov_regmem.md R136), and every opcode of ImmediateToReg is
covered (42_mov_imm_reg.md R153). -/

namespace Sys2Proof.Machine

variable {s : State}

/-! The bytes of a register-mode window (30_encoding.md R70). -/

theorem highByte_rmWindow (d w : BitVec 1) (mod : BitVec 2) (reg rm : BitVec 3) :
    highByte (rmWindow d w mod reg rm) = 0x88#8 ||| (d.setWidth 8 <<< 1) ||| w.setWidth 8 := by
  have bits : highByte (rmWindow d w mod reg rm) = 0b100010#6 ++ d ++ w := by
    apply BitVec.eq_of_toNat_eq
    rw [highByte_toNat, rmWindow_toNat, append_toNat, append_toNat]
    simp only [BitVec.toNat_ofNat]; omega
  rw [bits]; clear bits; revert d w; decide

theorem lowByte_rmWindow (d w : BitVec 1) (reg rm : BitVec 3) :
    lowByte (rmWindow d w 3#2 reg rm) = 0xC0#8 ||| (reg.setWidth 8 <<< 3) ||| rm.setWidth 8 := by
  have bits : lowByte (rmWindow d w 3#2 reg rm) = 3#2 ++ reg ++ rm := by
    apply BitVec.eq_of_toNat_eq
    rw [lowByte_toNat, rmWindow_toNat, append_toNat, append_toNat]
    simp only [BitVec.toNat_ofNat]; omega
  rw [bits]; clear bits; revert reg rm; decide

/-- The destination of a register-mode instruction. -/
def rrDst (d w : BitVec 1) (reg rm : BitVec 3) : Reg := if d = 1#1 then regOf reg w else regOf rm w

/-- The source of a register-mode instruction. -/
def rrSrc (d w : BitVec 1) (reg rm : BitVec 3) : Reg := if d = 1#1 then regOf rm w else regOf reg w

/-- The spec's encoder gives the bytes of the window whose registers it is given. -/
theorem encodeRR_registers (d w : BitVec 1) (reg rm : BitVec 3) :
    encodeRR d (rrDst d w reg rm) (rrSrc d w reg rm) =
      (highByte (rmWindow d w 3#2 reg rm), lowByte (rmWindow d w 3#2 reg rm)) := by
  rw [highByte_rmWindow, lowByte_rmWindow]
  rcases bit_cases d with rfl | rfl <;> simp [encodeRR, rrDst, rrSrc]

/-- A step over a register-mode window emits its two registers. -/
theorem step_rr_emits (hen : s.enabled) (h2 : 2 ≤ s.avail)
    (hclass : dispatch (windowAt s s.cursor) = some .regMemToFromReg) (hmod : rmMod (windowAt s s.cursor) = 3#2) :
    step s = .next (emitted s
      (.reg (rrDst (rmD (windowAt s s.cursor)) (rmW (windowAt s s.cursor)) (rmReg (windowAt s s.cursor))
        (rmRm (windowAt s s.cursor))))
      (.reg (rrSrc (rmD (windowAt s s.cursor)) (rmW (windowAt s s.cursor)) (rmReg (windowAt s s.cursor))
        (rmRm (windowAt s s.cursor)))) 2) := by
  have hdec := decode_remaining_regMem h2 hclass
  rw [decodeRegMem_rr hmod] at hdec
  rw [rrDst, rrSrc, apply_ite Operand.reg, apply_ite Operand.reg]
  exact (step_decoded hen hdec).trans (exec_movRR h2)

/-- Settles O25: the encoder gives back the two bytes of the window, and of the two encodings of a record of two
registers one has the given direction. -/
theorem registerModeRoundTrip : Obligations.RegisterModeRoundTrip := by
  refine ⟨fun s hen h2 hmask => ?_, fun d w reg rm d' => ?_⟩
  · obtain ⟨hclass, hmod⟩ := regMem_of_mask (mod := 3#2) hmask
    refine ⟨_, _, step_rr_emits hen h2 hclass hmod, ?_⟩
    rw [encodeRR_registers, ← hmod, rmWindow_fields hclass, windowAt, highByte_bytePair, lowByte_bytePair]
  · by_cases hd : d' = d
    · exact ⟨reg, rm, fun w'' reg'' rm'' => by simp [order_regs_eq_iff, hd]⟩
    · exact ⟨rm, reg, fun w'' reg'' rm'' => by simp [order_regs_eq_iff, hd]⟩

/-! The registers of byte 0 = 0xB0 + k, in REGTAB's order (10_state.md R21). -/

/-- The window of byte 0 = 0xB0 + k. -/
theorem window_of_byte0 {b0 b1 : Byte} {k : Nat} (hk : k < 16) (hb0 : b0.toNat = 0xB0 + k) :
    dispatch (bytePair b0 b1) = some .immediateToReg ∧ irW (bytePair b0 b1) = BitVec.ofNat 1 (k / 8) ∧
      irReg (bytePair b0 b1) = BitVec.ofNat 3 k := by
  have hb1 := b1.isLt
  refine ⟨?_, BitVec.eq_of_toNat_eq ?_, BitVec.eq_of_toNat_eq ?_⟩
  · rw [dispatch_immReg, bytePair_toNat]; omega
  · rw [irW_toNat, bytePair_toNat, BitVec.toNat_ofNat]; omega
  · rw [irReg_toNat, bytePair_toNat, BitVec.toNat_ofNat]; omega

theorem regOf_opcode : ∀ (k : Nat) (hk : k < 16), regOf (BitVec.ofNat 3 k) (BitVec.ofNat 1 (k / 8)) =
    [Reg.al, .cl, .dl, .bl, .ah, .ch, .dh, .bh, .ax, .cx, .dx, .bx, .sp, .bp, .si, .di][k] := by decide

/-- Settles O23: byte 0 gives the class, `w` and `reg`, which name the register. -/
theorem immediateClassCovered : Obligations.ImmediateClassCovered := by
  intro s k hk hen hb0 hfit
  obtain ⟨hclass, hw, hreg⟩ : dispatch (windowAt s s.cursor) = _ ∧ irW (windowAt s s.cursor) = _ ∧
    irReg (windowAt s s.cursor) = _ := window_of_byte0 hk hb0
  rw [← regOf_opcode k hk]
  by_cases h8 : k < 8
  · have hbit : BitVec.ofNat 1 (k / 8) = 0#1 := by rw [Nat.div_eq_of_lt h8]
    rw [if_pos h8] at hfit ⊢
    rw [hbit] at hw ⊢
    exact ⟨_, hreg ▸ step_ir8_emits hen hclass hw hfit⟩
  · have hbit : BitVec.ofNat 1 (k / 8) = 1#1 := by rw [show k / 8 = 1 by omega]
    rw [if_neg h8] at hfit ⊢
    rw [hbit] at hw ⊢
    exact hreg ▸ step_ir16_emits hen hclass hw hfit

end Sys2Proof.Machine
end

section
/-! PROOFS. What an instruction leaves unchanged (44_stream_advance.md R176, R177; 20_memory.md R51). -/

namespace Sys2Proof.Machine

/-- Settles O26: an instruction enters a failure or emits a record, and neither writes the stream, `N` or the reset
input. -/
theorem instructionFrame : Obligations.InstructionFrame := by
  intro i s t h
  rcases exec_outcomes i s with ⟨kind, window, hfail⟩ | ⟨rec, -, -, -, -, hemit⟩
  · obtain rfl := Host.Outcome.next.inj (h.symm.trans hfail)
    exact ⟨fun _ => rfl, rfl, rfl, fun hf => absurd rfl hf, fun _ => ⟨rfl, rfl⟩⟩
  · obtain rfl := Host.Outcome.next.inj (h.symm.trans hemit)
    exact ⟨fun _ => rfl, rfl, rfl, fun _ => rfl, fun hf => absurd hf (emitAdvance_not_failed s rec)⟩

/-- Settles O27: the fetch is the decoder over the bytes that remain. -/
theorem stepRunsDecodedInstruction : Obligations.StepRunsDecodedInstruction :=
  fun _ _ _ hen hok => step_decoded hen hok

end Sys2Proof.Machine
end

section
/-! PROOFS. A decode depends on the instruction's own bytes alone (30_encoding.md R85, 20_memory.md R54). -/

namespace Sys2Proof

variable {W : Word} {n : Nat} {rest : List Byte} {answer : List Byte → Except DecodeError (Instr × List Byte)}

theorem bytesNeeded_le_four (h : bytesNeeded W = some n) : n ≤ 4 := by
  cases hclass : dispatch W with
  | none => simp [bytesNeeded, hclass] at h
  | some tag =>
    cases tag with
    | regMemToFromReg =>
      have hextra := regMemExtra_le_two (rmMod W)
      cases (bytesNeeded_regMem hclass).symm.trans h; omega
    | immediateToRegMem => cases (bytesNeeded_immRegMem hclass).symm.trans h; omega
    | immediateToReg =>
      have hw := (irW W).isLt
      cases (bytesNeeded_immReg hclass).symm.trans h; omega

theorem DecodesFrom.truncated (h : DecodesFrom W rest n answer) (hlt : rest.length < n - 2) :
    answer rest = .error (.truncated W) := by
  rcases h with ⟨-, herr⟩ | ⟨hle, -⟩
  · exact herr
  · omega

theorem DecodesFrom.answers (h : DecodesFrom W rest n answer) (hle : n - 2 ≤ rest.length) :
    ∃ i : Instr, answer rest = .ok (i, rest.drop (n - 2)) ∧ answer (rest.take (n - 2)) = .ok (i, []) := by
  rcases h with ⟨hlt, -⟩ | ⟨-, hok⟩
  · omega
  · exact hok

end Sys2Proof

namespace Sys2Proof.Machine

variable {s s' : State} {i : Instr}

theorem instrOf_eq_ok {answer : Except DecodeError (Instr × List Byte)} :
    instrOf answer = .ok i ↔ ∃ r, answer = .ok (i, r) := by
  rcases answer with e | ⟨j, r⟩ <;> simp [instrOf]

theorem instrOf_eq_error {answer : Except DecodeError (Instr × List Byte)} {e : DecodeError} :
    instrOf answer = .error e ↔ answer = .error e := by
  rcases answer with e' | ⟨j, r⟩ <;> simp [instrOf]

/-- The decoder's answer is decided by four bytes. -/
theorem instrOf_decode_take_four (bytes : List Byte) : instrOf (decode (bytes.take 4)) = instrOf (decode bytes) := by
  match bytes with
  | [] | [_] => rfl
  | b0 :: b1 :: rest =>
    change instrOf (decode (b0 :: b1 :: rest.take 2)) = _
    cases hn : bytesNeeded (bytePair b0 b1) with
    | none => rw [decode_unsupported _ hn, decode_unsupported _ hn]
    | some n =>
      have h4 := bytesNeeded_le_four hn
      have hlen : (rest.take 2).length = min 2 rest.length := List.length_take
      by_cases hlt : rest.length < n - 2
      · have herr : decode (b0 :: b1 :: rest) = _ := (decode_from rest hn).truncated hlt
        have herr' : decode (b0 :: b1 :: rest.take 2) = _ := (decode_from (rest.take 2) hn).truncated (by omega)
        rw [herr, herr']
      · obtain ⟨i, hok, hown⟩ := (decode_from rest hn).answers (Nat.not_lt.mp hlt)
        obtain ⟨j, hok', hown'⟩ := (decode_from (rest.take 2) hn).answers (by omega)
        rw [List.take_take, Nat.min_eq_left (by omega)] at hown'
        cases hown.symm.trans hown'
        exact (congrArg instrOf hok').trans (congrArg instrOf hok).symm

/-- The same step in two states: one record of `n` bytes is emitted in both, or one failure entered in both. -/
def SameStep (s s' : State) (n : Nat) (o o' : Host.Outcome State Fault Refusal) : Prop :=
  (∃ dst src, o = .next (emitted s dst src n) ∧ o' = .next (emitted s' dst src n)) ∨
  (∃ kind window, o = .next (failedWith s kind window) ∧ o' = .next (failedWith s' kind window))

theorem emitNoDisp_same {W : Word} {d w : BitVec 1} {reg rm : BitVec 3} (h : 2 ≤ s.avail) (h' : 2 ≤ s'.avail) :
    SameStep s s' 2 (emitNoDisp W d w reg rm s) (emitNoDisp W d w reg rm s') := by
  by_cases hrm : rm = 6#3
  · subst hrm; exact .inr ⟨_, _, emitNoDisp_direct, emitNoDisp_direct⟩
  · exact .inl ⟨_, _, emitNoDisp_emits hrm h, emitNoDisp_emits hrm h'⟩

/-- An instruction that fits does the same in any two states, and a record it emits has its own length. -/
theorem exec_same (h : (encode i).length ≤ s.avail) (h' : (encode i).length ≤ s'.avail) :
    SameStep s s' (encode i).length (exec i s) (exec i s') := by
  cases i with
  | movRR d w reg rm => exact .inl ⟨_, _, exec_movRR h, exec_movRR h'⟩
  | movM0a d w reg rm => exact emitNoDisp_same h h'
  | movM0b d w reg rm => exact emitNoDisp_same h h'
  | movM0c d w reg => exact .inl ⟨_, _, exec_movM0c h, exec_movM0c h'⟩
  | movDirect d w reg => exact .inr ⟨_, _, rfl, rfl⟩
  | movM8 d w reg rm disp => exact .inl ⟨_, _, exec_movM8 h, exec_movM8 h'⟩
  | movM16 d w reg rm disp => exact .inl ⟨_, _, exec_movM16 h, exec_movM16 h'⟩
  | movIR8 reg data => exact .inl ⟨_, _, exec_movIR8 h, exec_movIR8 h'⟩
  | movIR16 reg data => exact .inl ⟨_, _, exec_movIR16 h, exec_movIR16 h'⟩
  | movIRM w byte1 => exact .inr ⟨_, _, rfl, rfl⟩

theorem emitted_injective {dst src dst' src' : Operand} {n n' : Nat}
    (h : emitted s dst src n = emitted s dst' src' n') : dst = dst' ∧ src = src' ∧ n = n' := by
  have record_eq := emitAdvance_injective (s := s) (rec := ⟨.mov, dst, src, n⟩) (rec' := ⟨.mov, dst', src', n'⟩) h
  cases record_eq
  exact ⟨rfl, rfl, rfl⟩

theorem emitted_ne_failedWith {dst src : Operand} {n : Nat} {kind : ErrKind} {window : Option Word} :
    emitted s dst src n ≠ failedWith s kind window :=
  fun h => emitted_not_failed dst src (congrArg State.status h)

/-- What emits a record emits it in the other state too. -/
theorem SameStep.emits {n n' : Nat} {dst src : Operand} {o o' : Host.Outcome State Fault Refusal}
    (hsame : SameStep s s' n' o o') (h : o = .next (emitted s dst src n)) :
    n = n' ∧ o' = .next (emitted s' dst src n') := by
  rcases hsame with ⟨dst', src', hemit, hemit'⟩ | ⟨kind, window, hfail, -⟩
  · obtain ⟨rfl, rfl, hn⟩ := emitted_injective (Host.Outcome.next.inj (h.symm.trans hemit))
    exact ⟨hn, hemit'⟩
  · exact absurd (Host.Outcome.next.inj (h.symm.trans hfail)) emitted_ne_failedWith

theorem remaining_length (s : State) : s.remaining.length = s.avail := by simp [State.remaining]

/-- A decoded instruction fits. -/
theorem encode_length_le_avail {r : List Byte} (hok : decode s.remaining = .ok (i, r)) :
    (encode i).length ≤ s.avail := by
  have bytes_eq := (wf_and_encode_of_decode hok).2
  rw [← remaining_length, bytes_eq, List.length_append]
  exact Nat.le_add_right ..

/-- A step that emits a record runs a decoded instruction of that length. -/
theorem decoded_of_step_emits {dst src : Operand} {n : Nat} (hen : s.enabled)
    (h : step s = .next (emitted s dst src n)) :
    ∃ i r, decode s.remaining = .ok (i, r) ∧ n = (encode i).length := by
  cases hdec : decode s.remaining with
  | error e => exact absurd (Host.Outcome.next.inj (h.symm.trans (step_rejected hen hdec))) emitted_ne_failedWith
  | ok answer =>
    obtain ⟨i, r⟩ := answer
    have hfit := encode_length_le_avail hdec
    exact ⟨i, r, rfl, ((exec_same hfit hfit).emits ((step_decoded hen hdec).symm.trans h)).1⟩

/-- Two enabled blocks over the same four bytes do the same. -/
theorem step_same_of_take_four (hen : s.enabled) (hen' : s'.enabled)
    (htake : s.remaining.take 4 = s'.remaining.take 4) :
    (∃ dst src n, step s = .next (emitted s dst src n) ∧ step s' = .next (emitted s' dst src n)) ∨
    (∃ kind window, step s = .next (failedWith s kind window) ∧ step s' = .next (failedWith s' kind window)) := by
  have answer_eq : instrOf (decode s.remaining) = instrOf (decode s'.remaining) := by
    rw [← instrOf_decode_take_four, htake, instrOf_decode_take_four]
  cases hdec : decode s.remaining with
  | error e =>
    rw [hdec] at answer_eq
    have hdec' := instrOf_eq_error.mp answer_eq.symm
    exact .inr ⟨_, _, step_rejected hen hdec, step_rejected hen' hdec'⟩
  | ok answer =>
    obtain ⟨i, r⟩ := answer
    rw [hdec] at answer_eq
    obtain ⟨r', hdec'⟩ := instrOf_eq_ok.mp answer_eq.symm
    rw [step_decoded hen hdec, step_decoded hen' hdec']
    rcases exec_same (encode_length_le_avail hdec) (encode_length_le_avail hdec') with
      ⟨dst, src, hemit⟩ | hfail
    · exact .inl ⟨dst, src, _, hemit⟩
    · exact .inr hfail

/-- The bytes of a record decide it. -/
theorem step_emits_of_take {dst src : Operand} {n : Nat} (hen : s.enabled) (hen' : s'.enabled)
    (h : step s = .next (emitted s dst src n)) (htake : s'.remaining.take n = s.remaining.take n) :
    step s' = .next (emitted s' dst src n) := by
  obtain ⟨i, r, hdec, rfl⟩ := decoded_of_step_emits hen h
  obtain ⟨hwf, bytes_eq⟩ := wf_and_encode_of_decode hdec
  have hdec' : decode s'.remaining = .ok (i, s'.remaining.drop (encode i).length) := by
    rw [bytes_eq, List.take_left] at htake
    conv_lhs => rw [← List.take_append_drop (encode i).length s'.remaining, htake]
    exact decode_encode hwf
  rw [step_decoded hen hdec] at h
  rw [step_decoded hen' hdec']
  exact ((exec_same (encode_length_le_avail hdec) (encode_length_le_avail hdec')).emits h).2

/-- Settles O38: the decoder's answer is decided by four bytes, and an instruction's own bytes decode to it whatever
follows them. -/
theorem decodeDependsOnOwnBytes : Obligations.DecodeDependsOnOwnBytes :=
  ⟨fun _ _ => step_same_of_take_four, fun _ _ _ _ _ => step_emits_of_take⟩

end Sys2Proof.Machine
end

section
/-! PROOFS. A placed opcode-table word is what the next step fetches. -/

namespace Sys2Proof.Machine

variable {s : State}

/-- The bytes placed at the cursor are the first that remain. -/
theorem remaining_placeAtCursor (hmem : s.stream.wf s.streamLen) (bytes : List Byte) :
    (s.placeAtCursor bytes).remaining.take bytes.length = bytes := by
  have hroom : bytes.length ≤ (s.placeAtCursor bytes).avail := by
    rw [State.avail, placeAtCursor_streamLen, placeAtCursor_cursor]; omega
  rw [remaining_split hroom, List.take_left' (by simp)]
  refine List.ext_getElem (by simp) fun k hk hk' => ?_
  have covers := Memory.wf_mono hmem (Nat.le_max_left s.streamLen (s.cursor + bytes.length))
  have placed := Memory.read_writeBytes covers (Nat.le_max_right ..) k hk'
  simpa [streamAt] using placed

theorem decodeTableWord_eq_some {nbits w : Nat} {i : Instr} (h : decodeTableWord nbits w = some i) :
    instrOf (decode (tableBytes nbits w)) = .ok i := by
  rw [decodeTableWord] at h
  split at h
  · next hok => cases h; rw [hok]; rfl
  · cases h

/-- Settles O46: the four bytes placed at the cursor decide what the decoder answers there. -/
theorem placedWordRunsNext : Obligations.PlacedWordRunsNext := by
  intro s nbits w i hmem htable
  have placed := remaining_placeAtCursor hmem (tableBytes nbits w)
  have answer_eq : instrOf (decode (s.withFetchWord nbits w).remaining) = .ok i := by
    rw [← instrOf_decode_take_four]
    exact (congrArg (instrOf ∘ decode) placed).trans (decodeTableWord_eq_some htable)
  obtain ⟨r, hok⟩ := instrOf_eq_ok.mp answer_eq
  exact step_decoded ⟨rfl, rfl⟩ hok

end Sys2Proof.Machine
end

section
/-! PROOFS. The stream's storage is canonical. -/

namespace Sys2Proof.Machine

variable {m m' : Memory} {n k k' : Nat} {v v' : Byte}

/-- The first cell of a canonical list, and the list after it. -/
theorem Memory.wf_cons (h : Memory.wf ((k, v) :: m) n) :
    k < n ∧ v ≠ Config.unlistedByte ∧ (∀ a ∈ m.map Prod.fst, k < a) ∧ Memory.wf m n := by
  obtain ⟨hsorted, hcells⟩ := h
  rw [List.map_cons, List.pairwise_cons] at hsorted
  obtain ⟨hkn, hv⟩ := hcells (k, v) List.mem_cons_self
  exact ⟨hkn, hv, hsorted.1, hsorted.2, fun c hc => hcells c (List.mem_cons_of_mem _ hc)⟩

theorem Memory.read_cons_same (m : Memory) (k : Nat) (v : Byte) : Memory.read ((k, v) :: m) k = v := if_pos rfl

theorem Memory.read_cons_other {a : Nat} (m : Memory) (v : Byte) (h : k ≠ a) :
    Memory.read ((k, v) :: m) a = m.read a := if_neg h

/-- A list that reads as a canonical one lists the first offset of that one. -/
theorem Memory.head_listed (h : Memory.wf ((k, v) :: m) n)
    (hread : ∀ a : Nat, a < n → Memory.read ((k, v) :: m) a = m'.read a) : k ∈ m'.map Prod.fst := by
  obtain ⟨hkn, hv, -, -⟩ := Memory.wf_cons h
  by_contra hout
  have unlisted := hread k hkn
  rw [Memory.read_cons_same, Memory.read_of_not_mem m' k hout] at unlisted
  exact hv unlisted

/-- The first offset of a list that reads as another is no earlier than that one's. -/
theorem Memory.head_le (h : Memory.wf ((k, v) :: m) n) (h' : Memory.wf ((k', v') :: m') n)
    (hread : ∀ a : Nat, a < n → Memory.read ((k, v) :: m) a = Memory.read ((k', v') :: m') a) : k' ≤ k := by
  obtain ⟨-, -, hlater, -⟩ := Memory.wf_cons h'
  rcases List.mem_cons.mp (Memory.head_listed h hread) with hk | hk
  · exact hk.ge
  · exact (hlater k hk).le

/-- Settles O45: the two lists have the same first offset, the first that reads as listed, and the same byte there; and
so on after it. -/
theorem cellListCanonical : Obligations.CellListCanonical := by
  intro m m' n h h' hread
  induction m generalizing m' with
  | nil =>
    cases m' with
    | nil => rfl
    | cons c' rest' => exact absurd (Memory.head_listed h' fun a ha => (hread a ha).symm) List.not_mem_nil
  | cons c rest ih =>
    cases m' with
    | nil => exact absurd (Memory.head_listed h hread) List.not_mem_nil
    | cons c' rest' =>
      obtain ⟨k, v⟩ := c
      obtain ⟨k', v'⟩ := c'
      obtain rfl : k = k' := le_antisymm (Memory.head_le h' h fun a ha => (hread a ha).symm) (Memory.head_le h h' hread)
      obtain ⟨hkn, -, hlater, hrest⟩ := Memory.wf_cons h
      obtain ⟨-, -, hlater', hrest'⟩ := Memory.wf_cons h'
      obtain rfl : v = v' := by simpa [Memory.read_cons_same] using hread k hkn
      congr 1
      refine ih _ hrest hrest' fun a ha => ?_
      by_cases hka : k = a
      · subst hka
        rw [Memory.read_of_not_mem rest k fun hk => (hlater k hk).false,
          Memory.read_of_not_mem rest' k fun hk => (hlater' k hk).false]
      · simpa [Memory.read_cons_other _ v hka] using hread a ha

end Sys2Proof.Machine
end

section
/-! PROOFS. Reset, the host's moves and what the host reads (10_state.md R32, R34; 70_reset_and_hazards.md R230 to R233,
R240). -/

namespace Sys2Proof.Machine

variable {s : State} {bytes : List Byte}

/-! A loaded stream is the bytes loaded. -/

theorem memRead_loaded (s : State) {k : Nat} (hk : k < bytes.length) : memRead (s.loaded bytes) k = .ok bytes[k] := by
  rw [memRead_inside (by exact hk)]
  exact congrArg Except.ok (Memory.read_ofBytes bytes k hk)

theorem remaining_loaded (s : State) (bytes : List Byte) : (s.loaded bytes).remaining = bytes := by
  refine List.ext_getElem (remaining_length _) fun k _ hk => ?_
  have loaded_byte := Memory.read_ofBytes bytes k hk
  simpa [State.remaining, streamAt, State.loaded] using loaded_byte

/-- Settles O41: a load leaves the reset values, and every offset below `N` reads the byte loaded there. -/
theorem loadedStreamReadsAsBytes : Obligations.LoadedStreamReadsAsBytes :=
  fun bytes => ⟨rfl, rfl, rfl, rfl, rfl, fun _ hk => memRead_loaded State.reset hk, remaining_loaded State.reset bytes⟩

/-- Settles O56: assert, load and deassert leave each the reset values over what the last load wrote. -/
theorem hostStartsRun : Obligations.HostStartsRun := by
  refine ⟨fun cw s => rfl, fun cw bytes s hr hlen => ?_, fun cw bytes s hlen => ?_⟩
  · exact ⟨_, hostMove_load hr hlen, hr, rfl, fun k hk => memRead_loaded s hk, rfl, rfl, rfl, rfl⟩
  · exact ⟨_, _, rfl, hostMove_load rfl hlen, rfl⟩

/-- Settles O40: the step in reset answers the reset values, and so does the move that asserts it. -/
theorem resetHoldsResetValues : Obligations.ResetHoldsResetValues :=
  ⟨fun _ hr => step_in_reset hr, fun _ _ => rfl⟩

/-- Outside reset a host move asserts reset, or leaves the whole state as it was. -/
theorem hostMove_outside_reset {cw : Nat} {m : HostMove} {t : State} (hr : s.resetLine = false)
    (h : hostMove cw m s = some t) :
    (m = .assertReset ∧ t = { s.holdReset with resetLine := true }) ∨ (m = .deassertReset ∧ t = s) := by
  rcases hostMove_cases h with hassert | ⟨rfl, rfl⟩ | ⟨bytes, -, hreset, -⟩
  · exact .inl hassert
  · exact .inr ⟨rfl, by rw [← hr]⟩
  · cases hr.symm.trans hreset

/-- Settles O39: the step rests, and the one move left outside reset deasserts an input that is deasserted already. -/
theorem terminalStatesAreQuiescent : Obligations.TerminalStatesAreQuiescent := by
  intro s hr hterminal
  refine ⟨step_terminal hr ?_, fun cw m t hm h => ?_⟩
  · rcases hterminal with hst | hst <;> rw [hst] <;> decide
  · rcases hostMove_outside_reset hr h with ⟨hassert, -⟩ | ⟨-, rfl⟩
    · exact absurd hassert hm
    · rfl

/-- Settles O42: outside reset a move asserts reset or changes nothing, and the guard of a load is the bound. -/
theorem hostWritesOnlyInReset : Obligations.HostWritesOnlyInReset := by
  refine ⟨fun cw m s t hr h => ?_, fun cw bytes s hr => ?_, fun cw bytes s hr => ?_⟩
  · rcases hostMove_outside_reset hr h with ⟨-, rfl⟩ | ⟨-, rfl⟩ <;> exact ⟨rfl, rfl⟩
  · exact if_neg fun hload => by cases hr.symm.trans hload.1
  · simp [hostMove, hr]

/-- The two fields of ERR. -/
theorem regErr_kind (s : State) : (regErr s).extractLsb' 0 2 = regErrKind s := BitVec.extractLsb'_append_eq_right

theorem regErr_windowValid (s : State) : (regErr s).extractLsb' 2 1 = regErrWindowValid s :=
  BitVec.extractLsb'_append_eq_left

/-- Settles O43: each register is read off the status or the failure. -/
theorem hostRegisterMap : Obligations.HostRegisterMap := by
  intro cw s
  refine ⟨rfl, ?_, fun hnone => ?_, fun kind offset window herr => ⟨?_, ?_, ?_⟩⟩
  · unfold regStatus; cases s.status <;> decide
  · refine ⟨?_, ?_, regErrWindow_none hnone⟩
    · simp [regErr, regErrKind, regErrWindowValid, hnone]
    · simp [regErrOffset, hnone]
  · rw [regErr_kind, regErrKind, herr]
    cases kind <;> rfl
  · rw [regErr_windowValid, regErrWindowValid, herr]
    cases window <;> rfl
  · rintro w rfl
    exact regErrWindow_some herr

end Sys2Proof.Machine
end

section
/-! PROOFS. The operand resolver's tables and widths (40_operand_resolver.md R103, R107, R110). -/

namespace Sys2Proof.Machine

/-- Settles O13: bit by bit, both are the byte with its sign bit above it. -/
theorem signExtensionIsShiftPair : Obligations.SignExtensionIsShiftPair := by
  intro b
  apply BitVec.eq_of_getLsbD_eq
  intro i hi
  rw [sext16, BitVec.getLsbD_signExtend, BitVec.getLsbD_sshiftRight]
  by_cases h8 : i < 8
  · have hi' : 8 + i < 16 := by omega
    simp [h8, hi, hi']
  · have hi' : ¬ 8 + i < 16 := by omega
    simp [h8, hi, hi', BitVec.msb]

/-- Settles O14: the table in its order, and the calculator's one exception. -/
theorem effectiveAddressTable : Obligations.EffectiveAddressTable :=
  ⟨rfl, rfl, rfl, rfl, rfl, rfl, rfl, rfl, fun _ => rfl⟩

end Sys2Proof.Machine
end
